-- ==== Sys2Proof/Word.lean ====
section
/-! DEFINITION. The word types of ZCORE (R9, R10): every value is an unsigned number of a stated width. -/

namespace Sys2Proof

/-- A data byte, a command byte or a symbol cell: 8 bits (R8, R9). -/
abbrev Byte := BitVec 8

/-- An error code or a checksum nibble: 4 bits (R8, R9). -/
abbrev Nibble := BitVec 4

/-- A host address: 12 bits (R9, R50). -/
abbrev Addr := BitVec 12

end Sys2Proof
end

