-- ==== Sys2Proof/Syntax.lean ====
section
/-! DEFINITION. The commands of ZCORE (one constructor per row of the opcode table), the host's bus transactions
(R70), the events the host can cause (R14, R180) and the host's program notation (R78). -/

namespace Sys2Proof

/-- A decoded command byte (R73, R77). No command has a register field, an immediate or a mode (R72, R76): every
operand is implicit (R75). The table gives the reserved space (R74) six rows, by the highest set bit of the byte; each is
a constructor here and carries the whole command byte, which CMD keeps (R99; DESIGN CHOICE, log 11). -/
inductive Instr where
  /-- 0x00, no operation (R98). -/
  | nop
  /-- 0x01, obfuscate a plaintext secret (R113). -/
  | encode
  /-- 0x02, recover a plaintext from a secret (R114). -/
  | decode
  /-- 0x03, the Checksum Nibble of the input (R131). -/
  | checksum
  /-- 0x04, bytes to a binary string (R141). -/
  | pack
  /-- 0x05, a binary string to bytes (R143). -/
  | unpack
  /-- 0000011x, reserved (R74, R99). -/
  | reserved06 (c : Byte)
  /-- 1xxxxxxx, reserved (R74, R99). -/
  | reserved80 (c : Byte)
  /-- 01xxxxxx, reserved (R74, R99). -/
  | reserved40 (c : Byte)
  /-- 001xxxxx, reserved (R74, R99). -/
  | reserved20 (c : Byte)
  /-- 0001xxxx, reserved (R74, R99). -/
  | reserved10 (c : Byte)
  /-- 00001xxx, reserved (R74, R99). -/
  | reserved08 (c : Byte)
  deriving DecidableEq, Repr

/-- A host bus transaction of one byte (R70): `R addr` or `W addr data`. -/
inductive Txn where
  | read (addr : Addr)
  | write (addr : Addr) (data : Byte)
  deriving DecidableEq, Repr

/-- What the host can do in one of its steps (R14): issue a transaction `size` bytes wide (ZCORE knows only size 1, R13,
R60), poll STATUS until BUSY is 0 (the WAIT loop of R78), or assert reset (R180). -/
inductive HostEvent where
  | bus (t : Txn) (size : Nat)
  | wait
  | reset
  deriving DecidableEq, Repr

/-- A line of a host program in the notation of R78. -/
inductive HostOp where
  /-- `WR addr, byte`. -/
  | wr (addr : Addr) (data : Byte)
  /-- `RD addr -> name`. -/
  | rd (addr : Addr)
  /-- A command mnemonic: write its byte to CMD. -/
  | command (i : Instr)
  /-- `WAIT`: poll until idle. -/
  | wait
  /-- `FILL base, [b0, ..., bn-1]`. -/
  | fill (base : Addr) (bytes : List Byte)
  /-- `SETBSLEN n`. -/
  | setBslen (n : BitVec 11)
  /-- `CLRREJ`. -/
  | clrRej
  deriving DecidableEq, Repr

end Sys2Proof
end

