-- ==== Sys2Proof/WellFormed.lean ====
section
/-! DEFINITION. Which terms of the syntax stand for something ZCORE has: a command byte that lies in its row of the
opcode table, a bus access of one byte, a program line that stays inside the address space. -/

namespace Sys2Proof

/-- A row of spec/opcode_table.json: a byte `c` belongs to the row when `c &&& mask = pattern` (R73, R74). -/
structure OpcodeRow where
  mnemonic : String
  pattern : Byte
  mask : Byte
  deriving DecidableEq, Repr

/-- The byte `c` belongs to the row. -/
def OpcodeRow.covers (r : OpcodeRow) (c : Byte) : Bool := c &&& r.mask == r.pattern

/-- The row of the opcode table that a constructor stands for. -/
def Instr.row : Instr → OpcodeRow
  | .nop          => ⟨"NOP", 0x00, 0xFF⟩
  | .encode       => ⟨"ENCODE", 0x01, 0xFF⟩
  | .decode       => ⟨"DECODE", 0x02, 0xFF⟩
  | .checksum     => ⟨"CHECKSUM", 0x03, 0xFF⟩
  | .pack         => ⟨"PACK", 0x04, 0xFF⟩
  | .unpack       => ⟨"UNPACK", 0x05, 0xFF⟩
  | .reserved06 _ => ⟨"RESERVED", 0x06, 0xFE⟩
  | .reserved80 _ => ⟨"RESERVED", 0x80, 0x80⟩
  | .reserved40 _ => ⟨"RESERVED", 0x40, 0xC0⟩
  | .reserved20 _ => ⟨"RESERVED", 0x20, 0xE0⟩
  | .reserved10 _ => ⟨"RESERVED", 0x10, 0xF0⟩
  | .reserved08 _ => ⟨"RESERVED", 0x08, 0xF8⟩

/-- A reserved command's byte lies in its row (R74); the six named commands have nothing to check (R72). -/
def Instr.wellFormed : Instr → Bool
  | .nop | .encode | .decode | .checksum | .pack | .unpack => true
  | .reserved06 c => (Instr.reserved06 c).row.covers c
  | .reserved80 c => (Instr.reserved80 c).row.covers c
  | .reserved40 c => (Instr.reserved40 c).row.covers c
  | .reserved20 c => (Instr.reserved20 c).row.covers c
  | .reserved10 c => (Instr.reserved10 c).row.covers c
  | .reserved08 c => (Instr.reserved08 c).row.covers c

/-- A bus access is one byte wide (R13, R60). -/
def HostEvent.wellFormed : HostEvent → Bool
  | .bus _ size => size == 1
  | .wait | .reset => true

/-- A program line names existing addresses only (R50) and well-formed commands. -/
def HostOp.wellFormed : HostOp → Bool
  | .fill base bytes => base.toNat + bytes.length ≤ 4096
  | .command i => i.wellFormed
  | .wr _ _ | .rd _ | .wait | .setBslen _ | .clrRej => true

end Sys2Proof
end

