-- ==== Sys2Proof/Decode.lean ====
section
/-! DEFINITION. The command decoder (R77), total on all 256 bytes; the command encoder (R73); the 21-bit packing of a
host transaction (R70, R71). No byte and no transaction word is refused (R168). -/

namespace Sys2Proof

/-- The field `rsv`, bits 7:3 of a command byte (R72). -/
def rsvField (c : Byte) : BitVec 5 := c.extractLsb' 3 5

/-- The field `op`, bits 2:0 of a command byte (R72). -/
def opField (c : Byte) : BitVec 3 := c.extractLsb' 0 3

/-- A byte whose `rsv` is not zero, sorted into the table's row by its highest set bit (R74). -/
def decodeReserved (c : Byte) : Instr :=
  if c.getLsbD 7 then .reserved80 c
  else if c.getLsbD 6 then .reserved40 c
  else if c.getLsbD 5 then .reserved20 c
  else if c.getLsbD 4 then .reserved10 c
  else .reserved08 c

/-- The decoding algorithm of R77. -/
def decodeByte (c : Byte) : Instr :=
  if rsvField c ≠ 0 then decodeReserved c
  else if opField c = 0b000 then .nop
  else if opField c = 0b001 then .encode
  else if opField c = 0b010 then .decode
  else if opField c = 0b011 then .checksum
  else if opField c = 0b100 then .pack
  else if opField c = 0b101 then .unpack
  else .reserved06 c

/-- The command byte of an instruction (R73). -/
def encodeByte : Instr → Byte
  | .nop => 0x00
  | .encode => 0x01
  | .decode => 0x02
  | .checksum => 0x03
  | .pack => 0x04
  | .unpack => 0x05
  | .reserved06 c | .reserved80 c | .reserved40 c | .reserved20 c | .reserved10 c | .reserved08 c => c

/-- The instruction read from a table word: every command is its first byte (R72). -/
def decodeTableWord (nbits w : Nat) : Option Instr :=
  some (decodeByte (BitVec.ofNat 8 (w % 2 ^ nbits)))

/-- The 21-bit word of a transaction (R70): bit 20 `dir` (1 for W), bits 19:8 `addr`, bits 7:0 `data` (0 for a read). -/
def encodeTxn : Txn → BitVec 21
  | .read a => (0#1 ++ a ++ 0#8 : BitVec 21)
  | .write a v => (1#1 ++ a ++ v : BitVec 21)

/-- Every 21-bit word decodes; a read's data bits are ignored (R71). -/
def decodeTxn (w : BitVec 21) : Txn :=
  if w.getLsbD 20 then .write (w.extractLsb' 8 12) (w.extractLsb' 0 8) else .read (w.extractLsb' 8 12)

end Sys2Proof
end

