-- ==== Sys2Proof/Config.lean ====
section
/-! DEFINITION. What an implementation of ZCORE fixes, and the values the spec leaves open. Every one is an opaque
constant: nothing can be proved about its value beyond its type. -/

namespace Sys2Proof

/-- MAX_BYTES - 1 (R7): MAX_BYTES is an open parameter from 1 to 255, so this is a number below 255
(DESIGN CHOICE, log 1). -/
opaque Config.maxBytesPred : Fin 255

/-- The byte that a buffer cell at a host address gets at the reset that takes the given draw (R38, R39). A free value
(DEDUCED, log 2). -/
opaque Config.resetByte : Nat → Nat → Byte

/-- The byte a read of a result location returns while BUSY is 1, for the given draw (R58). A free value
(DESIGN CHOICE, log 3). -/
opaque Config.busyByte : Nat → Byte

/-- The number of host steps between an acceptance, with the given draw, and its completion (R96, R190): any finite
number, zero included. A free value (DESIGN CHOICE, log 4). -/
opaque Config.latency : Nat → Nat

end Sys2Proof
end

