-- ==== Sys2Proof/Machine/Memory.lean ====
section
/-! DEFINITION. The buffers IN, OUT and BS as one sparse memory keyed by host address (R50), its canonical form and its
operations. -/

namespace Sys2Proof.Machine

/-- The cells of IN, OUT and BS by host address: addresses strictly rising, no cell holding 0x00 listed. -/
abbrev Memory := List Host.Cell

/-- What an address that is not listed reads as: 0x00, the value R56 gives an address with no location. -/
def unlisted : Byte := 0x00

/-- The canonical form of a memory: addresses strictly rising, no entry equal to what an unlisted address reads as. -/
abbrev Memory.wf (m : Memory) : Prop :=
  List.Pairwise (fun c d => c.1 < d.1) m ∧ ∀ c ∈ m, c.2 ≠ unlisted

/-- The byte at an address. -/
def Memory.read : Memory → Nat → Byte
  | [], _ => unlisted
  | (b, w) :: m, a => if b = a then w else Memory.read m a

/-- Put an entry at its place in the rising order, replacing one of the same address. -/
def Memory.insert : Memory → Nat → Byte → Memory
  | [], a, v => [(a, v)]
  | (b, w) :: m, a, v =>
    if a < b then (a, v) :: (b, w) :: m
    else if a = b then (a, v) :: m
    else (b, w) :: Memory.insert m a v

/-- Remove the entry of an address. -/
def Memory.erase (m : Memory) (a : Nat) : Memory := m.filter (fun c => c.1 != a)

/-- Write one byte, keeping the canonical form. -/
def Memory.write (m : Memory) (a : Nat) (v : Byte) : Memory :=
  if v = unlisted then Memory.erase m a else Memory.insert m a v

/-- Write consecutive bytes from an address upwards: a sequence occupies ascending cells (R59). -/
def Memory.writeBlock : Memory → Nat → List Byte → Memory
  | m, _, [] => m
  | m, a, v :: vs => Memory.writeBlock (Memory.write m a v) (a + 1) vs

/-- The `n` bytes from an address upwards, element 0 first (R59). -/
def Memory.readBlock (m : Memory) (a n : Nat) : List Byte :=
  (List.range n).map (fun i => Memory.read m (a + i))

/-- The first address of the IN window (R50). -/
abbrev inBase : Nat := 0x100

/-- The first address of the OUT window (R50). -/
abbrev outBase : Nat := 0x200

/-- The first address of the BS window (R50). -/
abbrev bsBase : Nat := 0x400

/-- The addresses of the cells that exist for a given MAX_BYTES (R26, R27, R28, R51), rising. -/
def cellAddrs (maxBytes : Nat) : List Nat :=
  List.range' inBase maxBytes ++ List.range' outBase maxBytes ++ List.range' bsBase (6 * maxBytes)

/-- The buffers after the reset that takes draw `n`: one arbitrary byte per cell (R38, R39). -/
def Memory.drawn (maxBytes n : Nat) : Memory :=
  ((cellAddrs maxBytes).map (fun a => (a, Config.resetByte n a))).filter (fun c => c.2 != unlisted)

end Sys2Proof.Machine
end

