-- ==== Sys2Proof/Machine/State.lean ====
section
/-! DEFINITION. The state of ZCORE (R40) with the host's side of the bus, the reasons a step can stop, and the state
after reset (R38). -/

namespace Sys2Proof.Machine

/-- The state. From `mem` to `bslen` it is the tuple of R40; `sizePred` is the machine's parameter; the last four fields
are the model's own. -/
structure State where
  /-- MAX_BYTES - 1 (R7): the parameter of this machine, changed by no step (DESIGN CHOICE, log 1). -/
  sizePred : Fin 255
  /-- IN, OUT and BS by host address (R26, R27, R28). -/
  mem : Memory
  /-- CMD: the last command byte accepted (R30). -/
  cmd : Byte
  /-- STATUS.BUSY: a command is pending (R29, R37). -/
  busy : Bool
  /-- STATUS.DONE: the last accepted command has completed (R29). -/
  done : Bool
  /-- STATUS.ERR: it reported a non-zero error code (R29). -/
  err : Bool
  /-- STATUS.REJ: a write was rejected because BUSY was 1 (R29, R166). -/
  rej : Bool
  /-- ERRCODE[3:0] (R31). -/
  errcode : Nibble
  /-- CSUM[3:0] (R32). -/
  csum : Nibble
  /-- LEN (R33). -/
  len : Byte
  /-- OUTLEN (R34). -/
  outlen : Byte
  /-- BSLEN, seen through BSLEN_L and BSLEN_H (R35). -/
  bslen : BitVec 11
  /-- The host steps still to come before the pending command completes; 0 when idle (R190; DESIGN CHOICE, log 4). -/
  latency : Nat
  /-- How many free values have been drawn (DESIGN CHOICE, log 3). -/
  draws : Nat
  /-- What the host will do, next event first (R70; DESIGN CHOICE, log 5). -/
  program : List HostEvent
  /-- The bytes the bus has returned to the host, oldest first (R52; DESIGN CHOICE, log 5). -/
  replies : List Byte
  deriving DecidableEq, Repr

/-- MAX_BYTES, from 1 to 255 (R7). -/
def State.maxBytes (s : State) : Nat := s.sizePred.val + 1

/-- The reasons a step can stop with a fault. There is NONE: a failed precondition is a completion with an error code,
not a fault (R168), and no state is stuck (DEDUCED, log 8; safe: a claim that no step faults is true by the rules). -/
inductive Fault where
  deriving DecidableEq, Repr

/-- The reasons a step can be refused. -/
inductive Refusal where
  /-- Raised by an arm of `exec` whose instruction has no meaning in the model. No arm does so. Safe. -/
  | notModelled (mnemonic : String)
  /-- Raised by a host bus access that is not one byte wide: outside ZCORE, and a model refuses it
  (R60; 93_implementation_defined.md U19; log 6). Safe. -/
  | wideAccess
  deriving DecidableEq, Repr

/-- The state of a machine of the given size after a reset that takes draw `n` (R38): every register at 0, no command
pending, every buffer cell a fresh arbitrary byte (R39). The host's side starts empty (DESIGN CHOICE, log 5). -/
def State.afterReset (sizePred : Fin 255) (n : Nat) : State where
  sizePred := sizePred
  mem := Memory.drawn (sizePred.val + 1) n
  cmd := 0x00
  busy := false
  done := false
  err := false
  rej := false
  errcode := 0
  csum := 0
  len := 0
  outlen := 0
  bslen := 0
  latency := 0
  draws := n + 1
  program := []
  replies := []

/-- The machine right after power-up, which is a reset (R180). -/
def State.reset : State := State.afterReset Config.maxBytesPred 0

end Sys2Proof.Machine
end

