-- ==== Sys2Proof/Machine/Flags.lean ====
section
/-! DEFINITION. STATUS and ERRCODE: the status byte the host reads (R29), the error codes (R160), and what the
completion of a command leaves in them (R93, R163). -/

namespace Sys2Proof.Machine

/-- A failed precondition of a command (R160). -/
inductive ContractError where
  | badOpcode | lenRange | empty | keyRange | tableOverrun | valueRange | badSymbol
  deriving DecidableEq, Repr

/-- The number of an error in ERRCODE (R160). -/
def ContractError.code : ContractError → Nibble
  | .badOpcode => 1
  | .lenRange => 2
  | .empty => 3
  | .keyRange => 4
  | .tableOverrun => 5
  | .valueRange => 6
  | .badSymbol => 7

/-- The byte a read of STATUS returns: `BUSY | DONE << 1 | ERR << 2 | REJ << 3`, bits 7:4 zero (R29). -/
def statusByte (s : State) : Byte :=
  (0#4 ++ BitVec.ofBool s.rej ++ BitVec.ofBool s.err ++ BitVec.ofBool s.done ++ BitVec.ofBool s.busy : BitVec 8)

/-- The status part of a completion with the given code: `ERRCODE <- code; ERR <- (code != 0); DONE <- 1; BUSY <- 0`
(R93). No host step is left to wait for (log 4). -/
def finish (code : Nibble) (s : State) : State :=
  { s with errcode := code, err := code != 0, done := true, busy := false, latency := 0 }

end Sys2Proof.Machine
end

