-- ==== Sys2Proof/Machine/Rom.lean ====
section
/-! DEFINITION. The Cipher Table (R23, R24) and the constant TBLSIZE (R36). No step writes them. -/

namespace Sys2Proof.Machine

/-- `ROM[0]` to `ROM[47]`, one key group of four entries a line (R23). -/
def rom : List Byte := [
  21, 35, 46, 4,
  13, 63, 26, 16,
  58, 47, 30, 32,
  15, 62, 54, 55,
  9, 41, 59, 49,
  2, 22, 61, 56,
  40, 19, 52, 50,
  1, 11, 10, 53,
  14, 27, 18, 44,
  33, 45, 37, 48,
  25, 42, 6, 57,
  60, 23, 51, 24]

/-- `ROM[pos]`. Past the table's end it is 0, which no command and no host read can reach (R67, R110; DESIGN CHOICE, log 9). -/
def romAt (pos : Nat) : Byte := rom.getD pos 0

/-- TBLSIZE: the number of cipher table entries (R8, R36). -/
abbrev tblSize : Nat := 48

end Sys2Proof.Machine
end

