-- ==== Sys2Proof/Machine/Map.lean ====
section
/-! DEFINITION. The host address map (R50, R51): which location, if any, an address names. -/

namespace Sys2Proof.Machine

/-- A location of the host space. A buffer cell is named by its index. -/
inductive Loc where
  | cmd | status | errcode | csum | len | outlen | bslenL | bslenH | tblsize | maxb
  | inCell (i : Nat) | outCell (i : Nat) | bsCell (i : Nat) | romCell (i : Nat)
  /-- A reserved address, or a window address whose index does not exist (R51, R56). -/
  | reserved
  deriving DecidableEq, Repr

/-- The registers of 0x000 to 0x00F (R50). -/
def locateRegister (n : Nat) : Loc :=
  if n = 0x000 then .cmd
  else if n = 0x001 then .status
  else if n = 0x002 then .errcode
  else if n = 0x003 then .csum
  else if n = 0x004 then .len
  else if n = 0x005 then .outlen
  else if n = 0x006 then .bslenL
  else if n = 0x007 then .bslenH
  else if n = 0x00E then .tblsize
  else if n = 0x00F then .maxb
  else .reserved

/-- The cell of a window that begins at `base` and holds `size` cells, for an address inside the window. -/
def locateCell (cell : Nat → Loc) (base size n : Nat) : Loc :=
  if n - base < size then cell (n - base) else .reserved

/-- The location that a host address, as a number, names on a machine with the given MAX_BYTES (R50, R51). -/
def locateNat (maxBytes n : Nat) : Loc :=
  if n < 0x010 then locateRegister n
  else if 0x100 ≤ n ∧ n ≤ 0x1FF then locateCell .inCell inBase maxBytes n
  else if 0x200 ≤ n ∧ n ≤ 0x2FF then locateCell .outCell outBase maxBytes n
  else if 0x400 ≤ n ∧ n ≤ 0x9FF then locateCell .bsCell bsBase (6 * maxBytes) n
  else if 0xC00 ≤ n ∧ n ≤ 0xC3F then locateCell .romCell 0xC00 tblSize n
  else .reserved

/-- The location an address names (R50, R51). -/
def locate (maxBytes : Nat) (a : Addr) : Loc := locateNat maxBytes a.toNat

/-- The locations a pending command may be updating, whose reads are unspecified while BUSY is 1 (R58). -/
def Loc.isResult : Loc → Bool
  | .outCell _ | .outlen | .csum | .bsCell _ | .bslenL | .bslenH => true
  | .cmd | .status | .errcode | .len | .tblsize | .maxb | .inCell _ | .romCell _ | .reserved => false

end Sys2Proof.Machine
end

