-- ==== Sys2Proof/Machine/Ops.lean ====
section
/-! DEFINITION. The named operations of ZCORE: acceptance (R92), error entry (R163), completion (R93), the host's reads
and writes (R52, R53, R57, R58), reset (R180) and the host's turn. -/

namespace Sys2Proof.Machine

/-- Acceptance of a command byte while BUSY is 0 (R92). It clears ERR and ERRCODE, which is ZCORE's only
acknowledgement of an error (R165), and draws how many host steps pass before the completion (R190, log 4). -/
def accept (v : Byte) (s : State) : State :=
  { s with cmd := v, busy := true, done := false, err := false, errcode := 0,
           latency := Config.latency s.draws, draws := s.draws + 1 }

/-- Error entry (R163): the failed command's completion sets ERRCODE, ERR, DONE and BUSY, and changes nothing else. -/
def raiseContractError (e : ContractError) (s : State) : State := finish e.code s

/-- Completion (R93) of a command whose `Execute` gave `r`: the state with its output writes applied, or the error it
raised, with no write applied (R164). -/
def complete (r : Except ContractError State) (s : State) : Host.Outcome State Fault Refusal :=
  match r with
  | .ok t => .next (finish 0 t)
  | .error e => .next (raiseContractError e s)

/-- The byte at a location as R52 gives it. -/
def readLoc (s : State) : Loc → Byte
  | .cmd => s.cmd
  | .status => statusByte s
  | .errcode => s.errcode.setWidth 8
  | .csum => s.csum.setWidth 8
  | .len => s.len
  | .outlen => s.outlen
  | .bslenL => s.bslen.setWidth 8
  | .bslenH => (s.bslen.extractLsb' 8 3).setWidth 8
  | .tblsize => BitVec.ofNat 8 tblSize
  | .maxb => BitVec.ofNat 8 s.maxBytes
  | .inCell i => Memory.read s.mem (inBase + i)
  | .outCell i => Memory.read s.mem (outBase + i)
  | .bsCell i => Memory.read s.mem (bsBase + i)
  | .romCell i => romAt i
  | .reserved => 0x00

/-- A host read is unspecified: BUSY is 1 and a command may be updating the location (R58). -/
def readIsOpen (s : State) (a : Addr) : Bool := s.busy && (locate s.maxBytes a).isResult

/-- The byte a host read of an address returns (R52, R58); an unspecified one is the next free value (log 3). -/
def busByte (s : State) (a : Addr) : Byte :=
  if readIsOpen s a then Config.busyByte s.draws else readLoc s (locate s.maxBytes a)

/-- A host read (R52, R58): the host receives the byte and ZCORE's own state is unchanged. -/
def hostRead (a : Addr) (s : State) : State :=
  { s with replies := s.replies ++ [busByte s a], draws := if readIsOpen s a then s.draws + 1 else s.draws }

/-- A host write to a location while BUSY is 0 (R53); read-only and reserved locations ignore it (R54, R56). -/
def writeLoc (v : Byte) (s : State) : Loc → State
  | .cmd => accept v s
  | .status => { s with rej := s.rej && !v.getLsbD 3 }
  | .len => { s with len := v }
  | .bslenL => { s with bslen := s.bslen.extractLsb' 8 3 ++ v }
  | .bslenH => { s with bslen := v.extractLsb' 0 3 ++ s.bslen.extractLsb' 0 8 }
  | .inCell i => { s with mem := Memory.write s.mem (inBase + i) v }
  | .bsCell i => { s with mem := Memory.write s.mem (bsBase + i) v }
  | .errcode | .csum | .outlen | .tblsize | .maxb | .outCell _ | .romCell _ | .reserved => s

/-- A host write: rejected while BUSY is 1, which sets REJ and nothing else (R57); else R53. -/
def hostWrite (a : Addr) (v : Byte) (s : State) : State :=
  if s.busy then { s with rej := true } else writeLoc v s (locate s.maxBytes a)

/-- A bus transaction of one byte (R70). -/
def hostTxn : Txn → State → State
  | .read a, s => hostRead a s
  | .write a v, s => hostWrite a v s

/-- Reset (R180, R181): every register as R38 says, the buffers drawn anew, a pending command abandoned. The host keeps
its program and what it has received, which are not ZCORE's (R20, log 5). -/
def hostReset (s : State) : State :=
  { State.afterReset s.sizePred s.draws with program := s.program, replies := s.replies }

/-- The address of STATUS (R50). -/
def statusAddr : Addr := 0x001

/-- One event of the host. WAIT reads STATUS and repeats while bit 0 of the value is 1 (R78). An access wider or
narrower than one byte is outside ZCORE (R60; U19). -/
def hostEvent (e : HostEvent) (s : State) : Host.Outcome State Fault Refusal :=
  match e with
  | .bus t size => if size = 1 then .next (hostTxn t s) else .refused .wideAccess
  | .wait =>
    if (busByte s statusAddr).getLsbD 0 then
      .next { hostRead statusAddr s with program := .wait :: s.program }
    else .next (hostRead statusAddr s)
  | .reset => .next (hostReset s)

/-- The state in which the host takes its next event, once that event is off its program. While a command is pending,
this uses up one of the host steps before the completion (R190, log 4). -/
def hostReady (rest : List HostEvent) (s : State) : State :=
  { s with program := rest, latency := if s.busy then s.latency - 1 else s.latency }

/-- The host's turn: it takes its next event, if it has one; with none left ZCORE waits (R182). -/
def hostTurn (s : State) : Host.Outcome State Fault Refusal :=
  match s.program with
  | [] => .next s
  | e :: rest => hostEvent e (hostReady rest s)

/-- The next step is the completion of the pending command: no host step is left before it, or the host has nothing to
do (R93, R96, log 4). -/
def completionDue (s : State) : Bool := s.busy && (s.latency == 0 || s.program.isEmpty)

end Sys2Proof.Machine
end

