-- ==== Sys2Proof/Machine/Operands.lean ====
section
/-! DEFINITION. The implicit operands of the commands (R75): the input sequence, the bit string, and the places results
go. Commands reach the buffers by cell index, not through the host space (R67). -/

namespace Sys2Proof.Machine

/-- `IN[i]`. -/
def inCell (s : State) (i : Nat) : Byte := Memory.read s.mem (inBase + i)

/-- `OUT[i]`. -/
def outCell (s : State) (i : Nat) : Byte := Memory.read s.mem (outBase + i)

/-- `BS[i]`. -/
def bsCell (s : State) (i : Nat) : Byte := Memory.read s.mem (bsBase + i)

/-- The input sequence `IN[0 .. LEN-1]` (R33, R75). -/
def inputBytes (s : State) : List Byte := Memory.readBlock s.mem inBase s.len.toNat

/-- The symbols of the full groups, `BS[0 .. 6*(BSLEN div 6)-1]` (R75, R144). -/
def fullGroups (s : State) : List Byte := Memory.readBlock s.mem bsBase (6 * (s.bslen.toNat / 6))

/-- The length check shared by ENCODE, DECODE, CHECKSUM and PACK (R95). -/
def checkLen (maxBytes n : Nat) : Except ContractError Unit :=
  if n ≤ maxBytes then .ok () else .error .lenRange

/-- `OUT[0 ..] <- bytes` and `OUTLEN <-` their number; the cells above keep their bytes (R27, R34). -/
def writeOutput (bytes : List Byte) (s : State) : State :=
  { s with mem := Memory.writeBlock s.mem outBase bytes, outlen := BitVec.ofNat 8 bytes.length }

/-- `BS[0 ..] <- symbols` and `BSLEN <-` their number; the cells above keep their bytes (R28, R35). -/
def writeBits (symbols : List Byte) (s : State) : State :=
  { s with mem := Memory.writeBlock s.mem bsBase symbols, bslen := BitVec.ofNat 11 symbols.length }

end Sys2Proof.Machine
end

