-- ==== Sys2Proof/Machine/BitPack.lean ====
section
/-! DEFINITION. The bit packer: PACK (R140, R141) and UNPACK (R142, R143). -/

namespace Sys2Proof.Machine

/-- The symbol of a bit: '0' is 0x30 and '1' is 0x31 (R28, R140). -/
def symbolOf (b : Bool) : Byte := if b then 0x31 else 0x30

/-- A byte is one of the two symbols (R143). -/
def isSymbol (b : Byte) : Bool := b == 0x30 || b == 0x31

/-- The bit of a symbol: 0 for 0x30, 1 for 0x31 (R142). -/
def bitOf (b : Byte) : BitVec 1 := BitVec.ofBool (b == 0x31)

/-- The 6 symbols of a byte below 64, most significant bit first (R140). -/
def groupOf (v : Byte) : List Byte :=
  [symbolOf (v.getLsbD 5), symbolOf (v.getLsbD 4), symbolOf (v.getLsbD 3),
   symbolOf (v.getLsbD 2), symbolOf (v.getLsbD 1), symbolOf (v.getLsbD 0)]

/-- The value of six symbols, the first the most significant (R142). -/
def groupValue (s0 s1 s2 s3 s4 s5 : Byte) : Byte :=
  (0#2 ++ bitOf s0 ++ bitOf s1 ++ bitOf s2 ++ bitOf s3 ++ bitOf s4 ++ bitOf s5 : BitVec 8)

/-- The binary string of a sequence: byte `j` takes symbols `6j` to `6j+5` (R59, R141). -/
def packBits (bytes : List Byte) : List Byte := bytes.flatMap groupOf

/-- The bytes of a binary string, one per full group from the left; symbols after the last full group give none
(R143, R144, R147). -/
def unpackBits : List Byte → List Byte
  | s0 :: s1 :: s2 :: s3 :: s4 :: s5 :: rest => groupValue s0 s1 s2 s3 s4 s5 :: unpackBits rest
  | _ => []

/-- `Execute(PACK)` (R141). Every input byte is checked before any symbol is written. -/
def executePack (s : State) : Except ContractError State :=
  match checkLen s.maxBytes s.len.toNat with
  | .error e => .error e
  | .ok () =>
    if (inputBytes s).all (fun b => b.toNat < 64) then .ok (writeBits (packBits (inputBytes s)) s)
    else .error .valueRange

/-- `Execute(UNPACK)` (R143, R145). Only the symbols of full groups are checked (R144). -/
def executeUnpack (s : State) : Except ContractError State :=
  if s.bslen.toNat ≤ 6 * s.maxBytes then
    if (fullGroups s).all isSymbol then .ok (writeOutput (unpackBits (fullGroups s)) s)
    else .error .badSymbol
  else .error .lenRange

/-- PACK (R141). -/
def execPack (s : State) : Host.Outcome State Fault Refusal := complete (executePack s) s

/-- UNPACK (R143). -/
def execUnpack (s : State) : Host.Outcome State Fault Refusal := complete (executeUnpack s) s

end Sys2Proof.Machine
end

