-- ==== Sys2Proof/Machine/Checksum.lean ====
section
/-! DEFINITION. The checksum unit: CHECKSUM (R130, R131). -/

namespace Sys2Proof.Machine

/-- `acc <- (acc + b[i]) mod 256` over a sequence (R130). -/
def byteSum (bytes : List Byte) : Byte := bytes.foldl (· + ·) 0

/-- The Checksum Nibble: the low 4 bits of the wrapped sum (R130). -/
def checksumNibble (bytes : List Byte) : Nibble := (byteSum bytes).setWidth 4

/-- `Execute(CHECKSUM)` (R131). -/
def executeChecksum (s : State) : Except ContractError State :=
  match checkLen s.maxBytes s.len.toNat with
  | .error e => .error e
  | .ok () => .ok { s with csum := checksumNibble (inputBytes s) }

/-- CHECKSUM (R131). -/
def execChecksum (s : State) : Host.Outcome State Fault Refusal := complete (executeChecksum s) s

end Sys2Proof.Machine
end

