-- ==== Sys2Proof/Machine/Cipher.lean ====
section
/-! DEFINITION. The cipher unit: ENCODE (R113) and DECODE (R114). -/

namespace Sys2Proof.Machine

/-- The key index `k = b >> 3` of a first byte (R111). -/
def keyIndex (b : Byte) : Nat := (b >>> 3).toNat

/-- The checks of ENCODE and DECODE, in their order (R112), for `n` bytes of which `first` is the first. -/
def checkCipher (maxBytes n : Nat) (first : Byte) : Except ContractError Unit :=
  if n ≤ maxBytes then
    if n = 0 then .error .empty
    else if 11 < keyIndex first then .error .keyRange
    else if tblSize < 4 * keyIndex first + n then .error .tableOverrun
    else .ok ()
  else .error .lenRange

/-- Each byte XORed with the next table entry, from position `pos` on (R113). The position never wraps (R16, R110). -/
def xorTable : Nat → List Byte → List Byte
  | _, [] => []
  | pos, b :: bs => (b ^^^ romAt pos) :: xorTable (pos + 1) bs

/-- The byte-0 fixup (R116): keep the low 3 bits of the first output byte, put the key of `first` into bits 7:3. -/
def fixupKey (first : Byte) : List Byte → List Byte
  | [] => []
  | t :: ts => ((t &&& 0x07#8) ||| ((first >>> 3) <<< 3)) :: ts

/-- The transform of R113 on a whole sequence: the key is fixed from the first byte before any byte is changed (R120). -/
def transform : List Byte → List Byte
  | [] => []
  | b :: bs => fixupKey b (xorTable (4 * keyIndex b) (b :: bs))

/-- `Execute(ENCODE)` (R113). -/
def executeEncode (s : State) : Except ContractError State :=
  match checkCipher s.maxBytes s.len.toNat (inCell s 0) with
  | .error e => .error e
  | .ok () => .ok (writeOutput (transform (inputBytes s)) s)

/-- `Execute(DECODE) = Execute(ENCODE)` (R114). -/
def executeDecode (s : State) : Except ContractError State := executeEncode s

/-- ENCODE (R113). -/
def execEncode (s : State) : Host.Outcome State Fault Refusal := complete (executeEncode s) s

/-- DECODE (R114). -/
def execDecode (s : State) : Host.Outcome State Fault Refusal := complete (executeDecode s) s

end Sys2Proof.Machine
end

