-- ==== Sys2Proof/Machine/Sequencer.lean ====
section
/-! DEFINITION. NOP (R98) and the reserved command bytes (R74, R99). -/

namespace Sys2Proof.Machine

/-- NOP completes with code 0 and writes nothing (R98). -/
def execNop (s : State) : Host.Outcome State Fault Refusal := complete (.ok s) s

/-- What every reserved byte does: BAD_OPCODE, and no other check (R99, R161). -/
def completeReserved (s : State) : Host.Outcome State Fault Refusal := complete (.error .badOpcode) s

/-- 0x06 and 0x07 (R99). -/
def execReserved06 (_c : Byte) (s : State) : Host.Outcome State Fault Refusal := completeReserved s

/-- 0x80 to 0xFF (R99). -/
def execReserved80 (_c : Byte) (s : State) : Host.Outcome State Fault Refusal := completeReserved s

/-- 0x40 to 0x7F (R99). -/
def execReserved40 (_c : Byte) (s : State) : Host.Outcome State Fault Refusal := completeReserved s

/-- 0x20 to 0x3F (R99). -/
def execReserved20 (_c : Byte) (s : State) : Host.Outcome State Fault Refusal := completeReserved s

/-- 0x10 to 0x1F (R99). -/
def execReserved10 (_c : Byte) (s : State) : Host.Outcome State Fault Refusal := completeReserved s

/-- 0x08 to 0x0F (R99). -/
def execReserved08 (_c : Byte) (s : State) : Host.Outcome State Fault Refusal := completeReserved s

end Sys2Proof.Machine
end

