-- ==== Sys2Proof/Machine/Dispatch.lean ====
section
/-! DEFINITION. The completion of every command (R94): one arm per row of the opcode table. -/

namespace Sys2Proof.Machine

def exec (i : Instr) (s : State) : Host.Outcome State Fault Refusal :=
  match i with
  | .nop => Sys2Proof.Machine.execNop s
  | .encode => Sys2Proof.Machine.execEncode s
  | .decode => Sys2Proof.Machine.execDecode s
  | .checksum => Sys2Proof.Machine.execChecksum s
  | .pack => Sys2Proof.Machine.execPack s
  | .unpack => Sys2Proof.Machine.execUnpack s
  | .reserved06 c => Sys2Proof.Machine.execReserved06 c s
  | .reserved80 c => Sys2Proof.Machine.execReserved80 c s
  | .reserved40 c => Sys2Proof.Machine.execReserved40 c s
  | .reserved20 c => Sys2Proof.Machine.execReserved20 c s
  | .reserved10 c => Sys2Proof.Machine.execReserved10 c s
  | .reserved08 c => Sys2Proof.Machine.execReserved08 c s

end Sys2Proof.Machine
end

