-- ==== Sys2Proof/Machine/Step.lean ====
section
/-! DEFINITION. One step of the machine: a completion or one event of the host, never both (R62, R167). -/

namespace Sys2Proof.Machine

/-- One step. When the completion is due, the pending byte in CMD is decoded and executed (R92, R93, R94); otherwise the
host has its turn. -/
def step (s : State) : Host.Outcome State Fault Refusal :=
  if completionDue s then exec (decodeByte s.cmd) s else hostTurn s

/-- The state with the command byte `w` pending and its completion the next step. ZCORE fetches nothing: a command byte
comes to run when the host writes it to CMD, so this stands for that accepted write (R92) with no host step drawn before
the completion (log 7). -/
def State.withFetchWord (s : State) (nbits w : Nat) : State :=
  { s with cmd := BitVec.ofNat 8 (w % 2 ^ nbits), busy := true, done := false, err := false, errcode := 0, latency := 0 }

end Sys2Proof.Machine
end

