-- ==== Sys2Proof/Machine/HostProgram.lean ====
section
/-! DEFINITION. The host's program notation (R78) as the events it stands for, and programs given as transaction words
(R70). -/

namespace Sys2Proof.Machine

/-- A one-byte write event. -/
def writeEvent (a : Addr) (v : Byte) : HostEvent := .bus (.write a v) 1

/-- `W base b0`, `W base+1 b1`, and so on (the FILL of R78; past 0xFFF DESIGN CHOICE, log 12). -/
def fillEvents : Addr → List Byte → List HostEvent
  | _, [] => []
  | a, b :: bs => writeEvent a b :: fillEvents (a + 1) bs

/-- The events a line of a host program stands for (R78). -/
def expandOp : HostOp → List HostEvent
  | .wr a v => [writeEvent a v]
  | .rd a => [.bus (.read a) 1]
  | .command i => [writeEvent 0x000 (encodeByte i)]
  | .wait => [.wait]
  | .fill base bytes => fillEvents base bytes
  | .setBslen n => [writeEvent 0x006 (n.setWidth 8), writeEvent 0x007 ((n.extractLsb' 8 3).setWidth 8)]
  | .clrRej => [writeEvent statusAddr 0x08]

/-- The events of a whole program in the notation of R78. -/
def expandProgram (ops : List HostOp) : List HostEvent := ops.flatMap expandOp

/-- A program given as 21-bit transaction words (R70, R71). -/
def wordEvents (ws : List (BitVec 21)) : List HostEvent := ws.map (fun w => .bus (decodeTxn w) 1)

end Sys2Proof.Machine
end

