-- ==== Sys2Proof/Safety.lean ====
section
/-! DEFINITION. The invariants of a run, and the spec's own tables and conditions in the form the claims use. -/

namespace Sys2Proof.Machine

/-- The address is that of a buffer cell that exists (R51). -/
def isCellAddr (maxBytes a : Nat) : Bool :=
  (inBase ≤ a && a < inBase + maxBytes) || (outBase ≤ a && a < outBase + maxBytes) ||
    (bsBase ≤ a && a < bsBase + 6 * maxBytes)

/-- Every listed address is that of an existing cell. -/
abbrev cellsExist (s : State) : Prop := ∀ c ∈ s.mem, isCellAddr s.maxBytes c.1 = true

/-- The four values of STATUS[2:0] that R29 calls reachable. -/
def statusLegal (s : State) : Bool :=
  match s.busy, s.done, s.err with
  | false, false, false => true
  | true, false, false => true
  | false, true, false => true
  | false, true, true => true
  | _, _, _ => false

/-- ERR says whether ERRCODE is zero (R93), and ERRCODE is a code that R160 defines (U14). -/
def errorLegal (s : State) : Bool := (s.err == (s.errcode != 0)) && decide (s.errcode.toNat < 8)

/-- OUTLEN counts cells of OUT (R34), and an idle machine has no host step to wait for (log 4). -/
def countsLegal (s : State) : Bool := decide (s.outlen.toNat ≤ s.maxBytes) && (s.busy || s.latency == 0)

/-- The invariant that every step keeps. -/
structure StateInv (s : State) : Prop where
  memory : Memory.wf s.mem
  cells : cellsExist s
  status : statusLegal s = true
  error : errorLegal s = true
  counts : countsLegal s = true

/-- A host event that cannot end or abandon a pending command: one byte wide, and no reset (R60, R181). -/
def harmless : HostEvent → Bool
  | .bus _ size => size == 1
  | .wait => true
  | .reset => false

/-- The command completes with an error code: ERRCODE, ERR, DONE and BUSY are set, and nothing else of ZCORE changes
(R163, R164). The model's count of host steps is left out. -/
def FailsWith (i : Instr) (s : State) (code : Nibble) : Prop :=
  ∃ t, exec i s = .next t ∧
    { t with latency := s.latency } = { s with errcode := code, err := true, done := true, busy := false }

/-- The status a successful completion leaves (R93). -/
def DoneOk (t : State) : Prop := t.busy = false ∧ t.done = true ∧ t.err = false ∧ t.errcode = 0

/-- `t` is `s` but for what a successful ENCODE, DECODE or UNPACK may write: OUT (in the memory), OUTLEN, the status. -/
def OnlyOutputChanged (s t : State) : Prop :=
  { t with mem := s.mem, outlen := s.outlen, busy := s.busy, done := s.done, err := s.err, errcode := s.errcode,
           latency := s.latency } = s

/-- Every byte of memory outside `n` cells from `base` is unchanged. -/
def MemoryKeptOutside (base n : Nat) (s t : State) : Prop :=
  ∀ a, ¬(base ≤ a ∧ a < base + n) → Memory.read t.mem a = Memory.read s.mem a

/-- The key index of the input: bits 7:3 of `IN[0]` (R111). -/
def inputKey (s : State) : Nat := (inCell s 0).toNat / 8

/-- The input passes the checks of R112. -/
def CipherReady (s : State) : Prop :=
  1 ≤ s.len.toNat ∧ s.len.toNat ≤ s.maxBytes ∧ inputKey s ≤ 11 ∧ 4 * inputKey s + s.len.toNat ≤ 48

/-- The result of the transform in OUT: byte 0 keeps the key and the low 3 bits of the XOR (R113, R116), the others are
XORed with consecutive table entries from 4k (R113). -/
def CipherResult (s t : State) : Prop :=
  outCell t 0 = BitVec.ofNat 8 (8 * inputKey s) ||| ((inCell s 0 ^^^ romAt (4 * inputKey s)) &&& 0x07) ∧
  ∀ j, 1 ≤ j → j < s.len.toNat → outCell t j = inCell s j ^^^ romAt (4 * inputKey s + j)

/-- What ENCODE and DECODE do on every state: the four checks of R112 in order, and the transform of R113. -/
def CipherExecutes (i : Instr) (s : State) : Prop :=
  (s.maxBytes < s.len.toNat → FailsWith i s 2) ∧
  (s.len.toNat = 0 → FailsWith i s 3) ∧
  (1 ≤ s.len.toNat → s.len.toNat ≤ s.maxBytes → 11 < inputKey s → FailsWith i s 4) ∧
  (1 ≤ s.len.toNat → s.len.toNat ≤ s.maxBytes → inputKey s ≤ 11 → 48 < 4 * inputKey s + s.len.toNat →
    FailsWith i s 5) ∧
  (CipherReady s → ∃ t, exec i s = .next t ∧ CipherResult s t ∧ t.outlen = s.len ∧
    MemoryKeptOutside outBase s.len.toNat s t ∧ DoneOk t ∧ OnlyOutputChanged s t)

/-- `u` is a machine of the same size that has the output of `t` as its input (the host's copy of R189). -/
def InputIsOutputOf (t u : State) : Prop :=
  u.sizePred = t.sizePred ∧ u.len = t.outlen ∧ ∀ j, j < t.outlen.toNat → inCell u j = outCell t j

/-- The first `n` cells of BS are symbols of a binary string: 0x30 or 0x31 (R28). -/
def SymbolsBelow (s : State) (n : Nat) : Prop := ∀ t, t < n → bsCell s t = 0x30 ∨ bsCell s t = 0x31

/-- The byte a read of host address `n` returns while BUSY is 0, as R52 lists it. -/
def idleReadTable (s : State) (n : Nat) : Byte :=
  if n = 0x000 then s.cmd
  else if n = 0x001 then statusByte s
  else if n = 0x002 then s.errcode.setWidth 8
  else if n = 0x003 then s.csum.setWidth 8
  else if n = 0x004 then s.len
  else if n = 0x005 then s.outlen
  else if n = 0x006 then BitVec.ofNat 8 (s.bslen.toNat % 256)
  else if n = 0x007 then BitVec.ofNat 8 (s.bslen.toNat / 256)
  else if n = 0x00E then 48
  else if n = 0x00F then BitVec.ofNat 8 s.maxBytes
  else if 0x100 ≤ n ∧ n ≤ 0x1FF ∧ n - 0x100 < s.maxBytes then inCell s (n - 0x100)
  else if 0x200 ≤ n ∧ n ≤ 0x2FF ∧ n - 0x200 < s.maxBytes then outCell s (n - 0x200)
  else if 0x400 ≤ n ∧ n ≤ 0x9FF ∧ n - 0x400 < 6 * s.maxBytes then bsCell s (n - 0x400)
  else if 0xC00 ≤ n ∧ n ≤ 0xC3F ∧ n - 0xC00 < 48 then romAt (n - 0xC00)
  else 0x00

/-- The effect of a write to host address `n` while BUSY is 0, as R53 lists it. -/
def idleWriteTable (n : Nat) (v : Byte) (s : State) : State :=
  if n = 0x000 then accept v s
  else if n = 0x001 then (if v.getLsbD 3 then { s with rej := false } else s)
  else if n = 0x004 then { s with len := v }
  else if n = 0x006 then { s with bslen := BitVec.ofNat 11 (s.bslen.toNat / 256 * 256 + v.toNat) }
  else if n = 0x007 then { s with bslen := BitVec.ofNat 11 (v.toNat % 8 * 256 + s.bslen.toNat % 256) }
  else if 0x100 ≤ n ∧ n ≤ 0x1FF ∧ n - 0x100 < s.maxBytes then { s with mem := Memory.write s.mem n v }
  else if 0x400 ≤ n ∧ n ≤ 0x9FF ∧ n - 0x400 < 6 * s.maxBytes then { s with mem := Memory.write s.mem n v }
  else s

/-- The addresses whose reads R58 leaves unspecified while BUSY is 1. -/
def isResultAddr (s : State) (n : Nat) : Bool :=
  n == 0x003 || n == 0x005 || n == 0x006 || n == 0x007 ||
    (0x200 ≤ n && n ≤ 0x2FF && n - 0x200 < s.maxBytes) ||
    (0x400 ≤ n && n ≤ 0x9FF && n - 0x400 < 6 * s.maxBytes)

/-- The read-only locations of R54. -/
def isReadOnlyAddr (n : Nat) : Bool :=
  n == 0x002 || n == 0x003 || n == 0x005 || n == 0x00E || n == 0x00F ||
    (0x200 ≤ n && n ≤ 0x2FF) || (0xC00 ≤ n && n ≤ 0xC3F)

/-- The reserved addresses of R50, and the window addresses whose index does not exist (R51, R56). -/
def isReservedAddr (s : State) (n : Nat) : Bool :=
  (0x008 ≤ n && n ≤ 0x00D) || (0x010 ≤ n && n ≤ 0x0FF) || (0x300 ≤ n && n ≤ 0x3FF) ||
    (0xA00 ≤ n && n ≤ 0xBFF) || (0xC40 ≤ n && n ≤ 0xFFF) ||
    (0x100 ≤ n && n ≤ 0x1FF && s.maxBytes ≤ n - 0x100) || (0x200 ≤ n && n ≤ 0x2FF && s.maxBytes ≤ n - 0x200) ||
    (0x400 ≤ n && n ≤ 0x9FF && 6 * s.maxBytes ≤ n - 0x400) || (0xC00 ≤ n && n ≤ 0xC3F && 48 ≤ n - 0xC00)

/-- The codes a command can report (R162). -/
def reportable : Instr → Nibble → Bool
  | .nop, c => c == 0
  | .encode, c | .decode, c => c == 0 || c == 2 || c == 3 || c == 4 || c == 5
  | .checksum, c => c == 0 || c == 2
  | .pack, c => c == 0 || c == 2 || c == 6
  | .unpack, c => c == 0 || c == 2 || c == 7
  | .reserved06 _, c | .reserved80 _, c | .reserved40 _, c | .reserved20 _, c | .reserved10 _, c
  | .reserved08 _, c => c == 1

end Sys2Proof.Machine
end

