-- ==== Sys2Proof/Certificates/Slice0/Obligations.lean ====
section
/-! DEFINITION. The statements for the provers. Each docstring says which rule of the spec it formalises. -/

open Sys2Proof Sys2Proof.Machine

/-! ### Encoding -/

/-- Every well-formed instruction is what its byte decodes to (R73, R74, R77). -/
def Obligations.EncodedInstructionDecodesBack : Prop :=
  ∀ i : Instr, i.wellFormed = true → decodeByte (encodeByte i) = i

/-- Every byte decodes to a well-formed instruction that encodes to the byte, and lies in the row of that instruction and
in no other row of the opcode table (R73, R74, R77). -/
def Obligations.EveryByteLiesInItsRowOnly : Prop :=
  ∀ c : Byte, (decodeByte c).wellFormed = true ∧ encodeByte (decodeByte c) = c ∧
    (decodeByte c).row.covers c = true ∧ ∀ i : Instr, i.row.covers c = true → i.row = (decodeByte c).row

/-- Every 21-bit transaction word decodes by its bit 20, a read's data bits are ignored, and packing loses nothing
(R70, R71). -/
def Obligations.TransactionWordsDecode : Prop :=
  (∀ x : Txn, decodeTxn (encodeTxn x) = x) ∧
  ∀ w : BitVec 21,
    (w.getLsbD 20 = false → decodeTxn w = .read (w.extractLsb' 8 12)) ∧
    (w.getLsbD 20 = true → decodeTxn w = .write (w.extractLsb' 8 12) (w.extractLsb' 0 8))

/-- Some command bytes, written out from R72 and R73, and the instructions they stand for. -/
def Obligations.WrittenOutBytesDecode : Prop :=
  decodeByte 0b00000000 = .nop ∧ decodeByte 0b00000001 = .encode ∧ decodeByte 0b00000010 = .decode ∧
  decodeByte 0b00000011 = .checksum ∧ decodeByte 0b00000100 = .pack ∧ decodeByte 0b00000101 = .unpack ∧
  decodeByte 0b00000111 = .reserved06 0x07 ∧ decodeByte 0b10000001 = .reserved80 0x81 ∧
  decodeByte 0b00001001 = .reserved08 0x09

/-- The lines of R78 and the transactions they stand for: WR and RD one write or read, WAIT the host's polling loop, a
command mnemonic one write of its byte of R73 to CMD, CLRREJ one write of 0x08 to STATUS, FILL one write per byte to
consecutive addresses from the base (as long as they exist), SETBSLEN `W 0x006 n[7:0]` and then `W 0x007 n[10:8]`, which
leave BSLEN at the given count on an idle machine. -/
def Obligations.ProgramNotationMeansItsWrites : Prop :=
  (∀ (a : Addr) (v : Byte), expandOp (.wr a v) = [.bus (.write a v) 1]) ∧
  (∀ a : Addr, expandOp (.rd a) = [.bus (.read a) 1]) ∧ expandOp .wait = [.wait] ∧
  (∀ i : Instr, i.wellFormed = true → ∃ c : Byte, decodeByte c = i ∧ expandOp (.command i) = [.bus (.write 0x000 c) 1]) ∧
  expandOp .clrRej = [.bus (.write 0x001 0x08) 1] ∧
  (∀ (base : Addr) (bytes : List Byte), base.toNat + bytes.length ≤ 4096 →
    expandOp (.fill base bytes) =
      bytes.mapIdx (fun j b => .bus (.write (BitVec.ofNat 12 (base.toNat + j)) b) 1)) ∧
  ∀ n : BitVec 11,
    expandOp (.setBslen n) = [.bus (.write 0x006 (BitVec.ofNat 8 (n.toNat % 256))) 1,
                              .bus (.write 0x007 (BitVec.ofNat 8 (n.toNat / 256))) 1] ∧
    ∀ s : State, s.busy = false →
      hostTxn (.write 0x007 (BitVec.ofNat 8 (n.toNat / 256)))
        (hostTxn (.write 0x006 (BitVec.ofNat 8 (n.toNat % 256))) s) = { s with bslen := n }

/-! ### The table, the parameter and reset -/

/-- The 48 entries of the cipher table (R23), and their ROM window, which reads them in every state (R50, R52, R58). -/
def Obligations.CipherTableContents : Prop :=
  rom = [21, 35, 46, 4, 13, 63, 26, 16, 58, 47, 30, 32, 15, 62, 54, 55, 9, 41, 59, 49, 2, 22, 61, 56, 40, 19, 52, 50,
    1, 11, 10, 53, 14, 27, 18, 44, 33, 45, 37, 48, 25, 42, 6, 57, 60, 23, 51, 24] ∧
  ∀ (s : State) (j : Nat) (h : j < rom.length), busByte s (BitVec.ofNat 12 (0xC00 + j)) = rom[j]

/-- TBLSIZE reads 48 and MAXB reads MAX_BYTES in every state, a write to either is ignored, and no step changes either,
a reset included (R36, R7). -/
def Obligations.ConstantsNeverChange : Prop :=
  (∀ s t : State, step s = .next t → t.sizePred = s.sizePred) ∧
  ∀ s : State, (busByte s 0x00E).toNat = 48 ∧ (busByte s 0x00F).toNat = s.maxBytes ∧
    1 ≤ s.maxBytes ∧ s.maxBytes ≤ 255 ∧
    ∀ v : Byte, s.busy = false → hostWrite 0x00E v s = s ∧ hostWrite 0x00F v s = s

/-- Reset puts CMD, STATUS, ERRCODE, CSUM, LEN, OUTLEN and BSLEN at 0, in every state and at power-up, and leaves the size
of the machine (R38, R180). -/
def Obligations.ResetClearsRegisters : Prop :=
  (∀ s : State, hostReset s =
    { hostReset s with sizePred := s.sizePred, cmd := 0, busy := false, done := false, err := false, rej := false,
                       errcode := 0, csum := 0, len := 0, outlen := 0, bslen := 0 }) ∧
  State.reset =
    { State.reset with cmd := 0, busy := false, done := false, err := false, rej := false, errcode := 0, csum := 0,
                       len := 0, outlen := 0, bslen := 0 } ∧
  statusByte State.reset = 0

/-- Reset, from any state and at power-up, gives every cell of IN, OUT and BS the byte of a draw, and lists no other
address (R38, R39, R180). The draw is the free value `Config.resetByte`, numbered by the draw counter, power-up's draw
being number 0; its use for these cells is log 2. -/
def Obligations.ResetDrawsEveryCell : Prop :=
  (∀ (s : State) (a : Nat), Memory.read (hostReset s).mem a =
    if isCellAddr s.maxBytes a then Config.resetByte s.draws a else 0) ∧
  ∀ a : Nat, Memory.read State.reset.mem a =
    if isCellAddr State.reset.maxBytes a then Config.resetByte 0 a else 0

/-- When the completion is not due (which the model decides, log 4) and the host's next event is a reset, the step leaves
ZCORE idle with nothing done and no error, whether or not a command was pending, and the pending command never completes:
nothing is left of it (R181). The host keeps the rest of its program and its replies (log 5). -/
def Obligations.ResetAbandonsPendingCommand : Prop :=
  ∀ (s : State) (rest : List HostEvent), completionDue s = false → s.program = .reset :: rest →
    ∃ t, step s = .next t ∧ t.busy = false ∧ t.done = false ∧ t.err = false ∧ t.errcode = 0 ∧ t.cmd = 0 ∧
      t.program = rest ∧ t.replies = s.replies

/-! ### Host accesses -/

/-- A host read returns one byte and changes no state of ZCORE; while BUSY is 0 the byte is the one R52 lists for the
address. The model's own log of replies and count of draws are left out of ZCORE's state. -/
def Obligations.IdleReadReturnsListedByte : Prop :=
  (∀ (s : State) (a : Addr), { hostRead a s with replies := s.replies, draws := s.draws } = s ∧
    ∃ v, (hostRead a s).replies = s.replies ++ [v]) ∧
  ∀ (s : State) (a : Addr), s.busy = false → hostRead a s = { s with replies := s.replies ++ [idleReadTable s a.toNat] }

/-- While BUSY is 1 a host read of a location a command may be updating returns a fresh draw, any other read returns the
byte of R52, and neither changes any state of ZCORE (R58; U10). The draw is the free value `Config.busyByte` of the draw
counter, which each such read advances by one and no other read changes, so that the next one takes another draw (log 3). -/
def Obligations.BusyReadReturnsDrawOrByte : Prop :=
  ∀ (s : State) (a : Addr), s.busy = true →
    { hostRead a s with replies := s.replies, draws := s.draws } = s ∧
    (hostRead a s).replies =
      s.replies ++ [if isResultAddr s a.toNat then Config.busyByte s.draws else idleReadTable s a.toNat] ∧
    (hostRead a s).draws = if isResultAddr s a.toNat then s.draws + 1 else s.draws

/-- While BUSY is 0 a host write has the effect R53 lists for the address. -/
def Obligations.IdleWriteHasListedEffect : Prop :=
  ∀ (s : State) (a : Addr) (v : Byte), s.busy = false → hostWrite a v s = idleWriteTable a.toNat v s

/-- A write to a read-only location while BUSY is 0 has no effect and reports nothing (R54). -/
def Obligations.ReadOnlyWriteHasNoEffect : Prop :=
  ∀ (s : State) (a : Addr) (v : Byte), s.busy = false → isReadOnlyAddr a.toNat = true → hostWrite a v s = s

/-- A reserved address, and a window address whose index does not exist, reads 0x00 in every state, and a write to it
while BUSY is 0 has no effect (R51, R56). -/
def Obligations.ReservedAddressReadsZero : Prop :=
  ∀ (s : State) (a : Addr) (v : Byte), isReservedAddr s a.toNat = true →
    busByte s a = 0 ∧ (s.busy = false → hostWrite a v s = s)

/-- While BUSY is 1 every host write changes nothing but REJ, and no step other than the completion and reset changes
anything of the pending command, its inputs or its outputs (R57). -/
def Obligations.BusyWriteIsRejected : Prop :=
  (∀ (s : State) (a : Addr) (v : Byte), s.busy = true → hostWrite a v s = { s with rej := true }) ∧
  ∀ s t : State, s.busy = true → completionDue s = false → (∀ rest, s.program ≠ .reset :: rest) → step s = .next t →
    { t with rej := s.rej, latency := s.latency, draws := s.draws, program := s.program, replies := s.replies } = s

/-- A host write to CMD while BUSY is 0 accepts the byte, legal or not, in one step, and changes nothing else of ZCORE
(R92). The model's own count of host steps and of draws, and the host's program, are left out. -/
def Obligations.CmdWriteAcceptsCommand : Prop :=
  ∀ (s : State) (v : Byte) (rest : List HostEvent), s.busy = false → s.program = .bus (.write 0x000 v) 1 :: rest →
    ∃ t, step s = .next t ∧
      { t with latency := s.latency, draws := s.draws, program := s.program } =
        { s with cmd := v, busy := true, done := false, err := false, errcode := 0 }

/-- After a host write while BUSY is 0 to a read-write location, the next read of it returns the written value; of
BSLEN_H, its bits 2:0 (R188, R55). -/
def Obligations.WriteThenReadReturnsValue : Prop :=
  ∀ (s : State) (a : Addr) (v : Byte), s.busy = false →
    ((a = 0x000 ∨ a = 0x004 ∨ a = 0x006 ∨ (0x100 ≤ a.toNat ∧ a.toNat < 0x100 + s.maxBytes) ∨
        (0x400 ≤ a.toNat ∧ a.toNat < 0x400 + 6 * s.maxBytes)) → busByte (hostWrite a v s) a = v) ∧
    (a = 0x007 → busByte (hostWrite a v s) a = v &&& 0x07)

/-- A write while BUSY is 1 sets REJ and changes nothing else of ZCORE; REJ is set by nothing else, and it is cleared
exactly by a write of STATUS with bit 3 set while BUSY is 0 and by reset (R166). -/
def Obligations.RejSetAndClearedOnlyAsStated : Prop :=
  (∀ (s : State) (a : Addr) (v : Byte) (rest : List HostEvent), completionDue s = false → s.busy = true →
    s.program = .bus (.write a v) 1 :: rest → step s = .next { hostReady rest s with rej := true }) ∧
  ∀ s t : State, step s = .next t →
    (s.rej = false → (t.rej = true ↔ completionDue s = false ∧ s.busy = true ∧
      ∃ a v rest, s.program = .bus (.write a v) 1 :: rest)) ∧
    (s.rej = true → (t.rej = false ↔ completionDue s = false ∧
      ((∃ rest, s.program = .reset :: rest) ∨
        (s.busy = false ∧ ∃ v rest, v.getLsbD 3 = true ∧ s.program = .bus (.write 0x001 v) 1 :: rest))))

/-! ### Commands -/

/-- NOP, the byte 0x00, completes with code 0 and changes no data register or buffer (R98). -/
def Obligations.NopOnlyFinishes : Prop :=
  decodeByte 0x00 = .nop ∧ ∀ s : State, ∃ t, exec .nop s = .next t ∧
    { t with latency := s.latency } = { s with errcode := 0, err := false, done := true, busy := false }

/-- Every byte whose bits 7:3 are not zero, 0x06 and 0x07 decode to a reserved command, and a reserved command completes
with BAD_OPCODE, makes no other check and changes nothing else (R99). A reserved command is a reserved constructor with a
byte of its row. -/
def Obligations.ReservedReportsBadOpcode : Prop :=
  (∀ (s : State) (c : Byte), c.extractLsb' 3 5 ≠ 0 ∨ c = 0x06 ∨ c = 0x07 → FailsWith (decodeByte c) s 1) ∧
  ∀ (s : State) (c : Byte),
    ((Instr.reserved06 c).wellFormed = true → FailsWith (.reserved06 c) s 1) ∧
    ((Instr.reserved80 c).wellFormed = true → FailsWith (.reserved80 c) s 1) ∧
    ((Instr.reserved40 c).wellFormed = true → FailsWith (.reserved40 c) s 1) ∧
    ((Instr.reserved20 c).wellFormed = true → FailsWith (.reserved20 c) s 1) ∧
    ((Instr.reserved10 c).wellFormed = true → FailsWith (.reserved10 c) s 1) ∧
    ((Instr.reserved08 c).wellFormed = true → FailsWith (.reserved08 c) s 1)

/-- A reserved constructor with any byte, one outside its row included, completes with BAD_OPCODE and changes nothing
else. For a byte outside the row this is the model's choice (DESIGN CHOICE, log 11): no decoding makes such a term. -/
def Obligations.ReservedWithAnyByteReportsBadOpcode : Prop :=
  ∀ (s : State) (c : Byte), FailsWith (.reserved06 c) s 1 ∧ FailsWith (.reserved80 c) s 1 ∧
    FailsWith (.reserved40 c) s 1 ∧ FailsWith (.reserved20 c) s 1 ∧ FailsWith (.reserved10 c) s 1 ∧
    FailsWith (.reserved08 c) s 1

/-- ENCODE on every state: the checks of R112 in order with their codes, else the transform of R113 into OUT and OUTLEN,
with everything else unchanged. -/
def Obligations.EncodeChecksThenTransforms : Prop :=
  decodeByte 0x01 = .encode ∧ ∀ s : State, CipherExecutes .encode s

/-- DECODE does what ENCODE does, its key read from the first byte of the ciphertext (R114). -/
def Obligations.DecodeChecksThenTransforms : Prop :=
  decodeByte 0x02 = .decode ∧ ∀ s : State, CipherExecutes .decode s

/-- CHECKSUM on every state: LEN_RANGE when LEN > MAX_BYTES, else CSUM becomes the low 4 bits of the sum modulo 256 of
IN[0 .. LEN-1], with everything else unchanged (R131). -/
def Obligations.ChecksumSumsInput : Prop :=
  decodeByte 0x03 = .checksum ∧ ∀ s : State,
    (s.maxBytes < s.len.toNat → FailsWith .checksum s 2) ∧
    (s.len.toNat ≤ s.maxBytes → ∃ t, exec .checksum s = .next t ∧ DoneOk t ∧
      t.csum.toNat = ((List.range s.len.toNat).map (fun j => (inCell s j).toNat)).sum % 256 % 16 ∧
      { t with csum := s.csum, busy := s.busy, done := s.done, err := s.err, errcode := s.errcode,
               latency := s.latency } = s)

/-- PACK on every state: LEN_RANGE, VALUE_RANGE when an input byte is 64 or more, else symbol 6j+t of BS is bit 5-t of
IN[j] and BSLEN is 6*LEN, with everything else unchanged (R140, R141). -/
def Obligations.PackChecksThenWritesGroups : Prop :=
  decodeByte 0x04 = .pack ∧ ∀ s : State,
    (s.maxBytes < s.len.toNat → FailsWith .pack s 2) ∧
    (s.len.toNat ≤ s.maxBytes → (∃ j, j < s.len.toNat ∧ 64 ≤ (inCell s j).toNat) → FailsWith .pack s 6) ∧
    (s.len.toNat ≤ s.maxBytes → (∀ j, j < s.len.toNat → (inCell s j).toNat < 64) →
      ∃ t, exec .pack s = .next t ∧ DoneOk t ∧ t.bslen.toNat = 6 * s.len.toNat ∧
        (∀ j b, j < s.len.toNat → b < 6 →
          bsCell t (6 * j + b) = if (inCell s j).getLsbD (5 - b) then 0x31 else 0x30) ∧
        MemoryKeptOutside bsBase (6 * s.len.toNat) s t ∧
        { t with mem := s.mem, bslen := s.bslen, busy := s.busy, done := s.done, err := s.err, errcode := s.errcode,
                 latency := s.latency } = s)

/-- UNPACK on every state: LEN_RANGE, BAD_SYMBOL when a symbol of a full group is neither 0x30 nor 0x31, else OUT[j] is
the value of symbols 6j to 6j+5, most significant first, and OUTLEN is BSLEN div 6, with everything else unchanged
(R142, R143, R144, R145, R147). -/
def Obligations.UnpackChecksThenWritesBytes : Prop :=
  decodeByte 0x05 = .unpack ∧ ∀ s : State,
    (6 * s.maxBytes < s.bslen.toNat → FailsWith .unpack s 2) ∧
    (s.bslen.toNat ≤ 6 * s.maxBytes → ¬ SymbolsBelow s (6 * (s.bslen.toNat / 6)) → FailsWith .unpack s 7) ∧
    (s.bslen.toNat ≤ 6 * s.maxBytes → SymbolsBelow s (6 * (s.bslen.toNat / 6)) →
      ∃ t, exec .unpack s = .next t ∧ DoneOk t ∧ t.outlen.toNat = s.bslen.toNat / 6 ∧
        (∀ j, j < s.bslen.toNat / 6 → (outCell t j).toNat =
          ((List.range 6).map (fun b => if bsCell s (6 * j + b) = 0x31 then 2 ^ (5 - b) else 0)).sum) ∧
        MemoryKeptOutside outBase (s.bslen.toNat / 6) s t ∧ OnlyOutputChanged s t)

/-! ### Laws of the units -/

/-- Involution: on every input that passes R112, ENCODE succeeds, and DECODE of its output succeeds and returns the input;
and so with the two commands exchanged (R117). -/
def Obligations.EncodeAndDecodeUndoEachOther : Prop :=
  ∀ (i j : Instr) (s : State), ((i = .encode ∧ j = .decode) ∨ (i = .decode ∧ j = .encode)) → CipherReady s →
    ∃ t, exec i s = .next t ∧ DoneOk t ∧ t.outlen = s.len ∧
      ∀ u, InputIsOutputOf t u → ∃ v, exec j u = .next v ∧ DoneOk v ∧ v.outlen = s.len ∧
        ∀ b, b < s.len.toNat → outCell v b = inCell s b

/-- Key preservation: for every input that passes R112, `OUT[0] >> 3 = IN[0] >> 3` (R118). -/
def Obligations.CipherKeepsKey : Prop :=
  ∀ (i : Instr) (s t : State), (i = .encode ∨ i = .decode) → CipherReady s → exec i s = .next t →
    (outCell t 0) >>> 3 = (inCell s 0) >>> 3

/-- Value range: every table entry is below 64, bits 7:6 of later bytes pass through, `OUT[i] < 64` exactly when `IN[i] < 64`, `OUT[0] < 64` exactly when
the key is at most 7, else it is 64 to 95 and a PACK of the output reports VALUE_RANGE (R119). -/
def Obligations.CipherOutputRange : Prop :=
  (∀ b, b ∈ rom → b.toNat < 64) ∧
  ∀ (i : Instr) (s t : State), (i = .encode ∨ i = .decode) → CipherReady s → exec i s = .next t →
    (∀ j, 1 ≤ j → j < s.len.toNat →
      (outCell t j) >>> 6 = (inCell s j) >>> 6 ∧ ((outCell t j).toNat < 64 ↔ (inCell s j).toNat < 64)) ∧
    ((outCell t 0).toNat < 64 ↔ inputKey s ≤ 7) ∧
    (8 ≤ inputKey s → 64 ≤ (outCell t 0).toNat ∧ (outCell t 0).toNat ≤ 95 ∧
      ∀ u, InputIsOutputOf t u → FailsWith .pack u 6)

/-- The checksum function: the low 4 bits of the sum modulo 256, which is the sum modulo 16 (R130). -/
def Obligations.ChecksumIsSumModSixteen : Prop :=
  ∀ bytes : List Byte,
    (checksumNibble bytes).toNat = (bytes.map BitVec.toNat).sum % 256 % 16 ∧
    (checksumNibble bytes).toNat = (bytes.map BitVec.toNat).sum % 16

/-- Round trip: PACK of bytes below 64 succeeds and an UNPACK of what it leaves returns them; and PACK of UNPACK's output
rebuilds a string of whole groups (R146). -/
def Obligations.PackAndUnpackRoundTrip : Prop :=
  (∀ s : State, s.len.toNat ≤ s.maxBytes → (∀ j, j < s.len.toNat → (inCell s j).toNat < 64) →
    ∃ t u, exec .pack s = .next t ∧ DoneOk t ∧ t.bslen.toNat = 6 * s.len.toNat ∧
      exec .unpack t = .next u ∧ DoneOk u ∧ u.outlen = s.len ∧
      ∀ j, j < s.len.toNat → outCell u j = inCell s j) ∧
  ∀ s : State, s.bslen.toNat ≤ 6 * s.maxBytes → s.bslen.toNat % 6 = 0 → SymbolsBelow s s.bslen.toNat →
    ∃ t, exec .unpack s = .next t ∧ DoneOk t ∧
      ∀ u, InputIsOutputOf t u → ∃ v, exec .pack u = .next v ∧ DoneOk v ∧ v.bslen = s.bslen ∧
        ∀ b, b < s.bslen.toNat → bsCell v b = bsCell s b

/-- The worked example of §8.5 and the packing example of §8.6 (R19; V1 and V2). -/
def Obligations.NormativeVectorsHold : Prop :=
  (∀ s : State, s.len = 2 → 2 ≤ s.maxBytes → inCell s 0 = 0x08 → inCell s 1 = 0x00 →
    ∃ t, exec .encode s = .next t ∧ DoneOk t ∧ outCell t 0 = 13 ∧ outCell t 1 = 63 ∧ t.outlen = 2) ∧
  ∀ s : State, s.len = 2 → 2 ≤ s.maxBytes → inCell s 0 = 5 → inCell s 1 = 63 →
    ∃ t, exec .pack s = .next t ∧ DoneOk t ∧ t.bslen = 12 ∧
      (List.range 12).map (bsCell t) =
        [0x30, 0x30, 0x30, 0x31, 0x30, 0x31, 0x31, 0x31, 0x31, 0x31, 0x31, 0x31]

/-! ### Errors and completions -/

/-- A command that reports a non-zero code writes none of its outputs: nothing changes but ERRCODE, ERR, DONE and BUSY
(R163, R164). -/
def Obligations.FailedCommandWritesNothing : Prop :=
  ∀ (i : Instr) (s t : State), exec i s = .next t → t.errcode ≠ 0 →
    { t with latency := s.latency } = { s with errcode := t.errcode, err := true, done := true, busy := false }

/-- A command reports only the codes R162 gives it, so never one of 8 to 15 (R160, R162). -/
def Obligations.CommandReportsOnlyItsCodes : Prop :=
  ∀ (i : Instr) (s t : State), exec i s = .next t → reportable i t.errcode = true ∧ t.errcode.toNat < 8

/-- Every command completes in every state: BUSY 0, DONE 1, ERR as ERRCODE says (R93); CMD, LEN, REJ, the size and IN are
unchanged by every command, and BS and BSLEN by every one but PACK (R189, R26, R33). -/
def Obligations.EveryCommandCompletesKeepingInputs : Prop :=
  ∀ (i : Instr) (s : State), ∃ t, exec i s = .next t ∧ t.busy = false ∧ t.done = true ∧
    (t.err = true ↔ t.errcode ≠ 0) ∧ t.cmd = s.cmd ∧ t.len = s.len ∧ t.rej = s.rej ∧ t.sizePred = s.sizePred ∧
    (∀ j, j < s.maxBytes → inCell t j = inCell s j) ∧
    (i ≠ .pack → t.bslen = s.bslen ∧ ∀ j, j < 6 * s.maxBytes → bsCell t j = bsCell s j)

/-- A command's error code and writes depend only on its input registers and buffers: two machines that agree on the size,
LEN, BSLEN, IN and BS get the same code, and each output either gets the same value on both or is left alone on both
(R17, R97). -/
def Obligations.CommandDependsOnInputsOnly : Prop :=
  ∀ (i : Instr) (s s' t t' : State), s.sizePred = s'.sizePred → s.len = s'.len → s.bslen = s'.bslen →
    (∀ j, j < s.maxBytes → inCell s j = inCell s' j) → (∀ j, j < 6 * s.maxBytes → bsCell s j = bsCell s' j) →
    exec i s = .next t → exec i s' = .next t' →
    t.errcode = t'.errcode ∧ (t.csum = t'.csum ∨ (t.csum = s.csum ∧ t'.csum = s'.csum)) ∧
    (t.outlen = t'.outlen ∨ (t.outlen = s.outlen ∧ t'.outlen = s'.outlen)) ∧ t.bslen = t'.bslen ∧
    (∀ j, j < 6 * s.maxBytes → bsCell t j = bsCell t' j) ∧
    ∀ j, j < s.maxBytes → outCell t j = outCell t' j ∨ (outCell t j = outCell s j ∧ outCell t' j = outCell s' j)

/-! ### Steps -/

/-- When the completion is due, a step is the execution of the instruction the byte in CMD decodes to, and nothing is
added around it (R93, R94); a byte placed by `withFetchWord` is run by the very next step. -/
def Obligations.StepRunsDecodedCommand : Prop :=
  (∀ (s : State) (i : Instr), completionDue s = true → decodeByte s.cmd = i → step s = exec i s) ∧
  ∀ (s : State) (c : Byte), step (s.withFetchWord 8 c.toNat) = exec (decodeByte c) (s.withFetchWord 8 c.toNat)

/-- When the completion is not due, a step is the host's next event (a transaction or a reset; WAIT has its own
statement), taken off its program; with none left, nothing happens (R62, R182). Which step comes next is the model's choice of log 4 and 5. -/
def Obligations.StepTakesNextHostEvent : Prop :=
  (∀ (s : State) (x : Txn) (rest : List HostEvent), completionDue s = false → s.program = .bus x 1 :: rest →
    step s = .next (hostTxn x (hostReady rest s))) ∧
  (∀ (s : State) (rest : List HostEvent), completionDue s = false → s.program = .reset :: rest →
    step s = .next (hostReset (hostReady rest s))) ∧
  ∀ s : State, s.busy = false → s.program = [] → step s = .next s

/-- WAIT reads STATUS, and stays the host's next event exactly while BUSY is 1 (R78, R186). -/
def Obligations.WaitPollsUntilIdle : Prop :=
  ∀ (s : State) (rest : List HostEvent), completionDue s = false → s.program = .wait :: rest →
    ∃ t, step s = .next t ∧ t.replies = s.replies ++ [statusByte s] ∧
      (s.busy = true → t.program = .wait :: rest ∧ t.busy = true) ∧
      (s.busy = false → t = { s with program := rest, replies := s.replies ++ [statusByte s] })

/-- A step is refused only for a host access that is not one byte wide, and such an access is refused (R60; U19). -/
def Obligations.OnlyWideAccessIsRefused : Prop :=
  ∀ (s : State) (r : Refusal), step s = .refused r ↔
    r = .wideAccess ∧ completionDue s = false ∧ ∃ x size rest, s.program = .bus x size :: rest ∧ size ≠ 1

/-- A pending command completes: whatever one-byte accesses and waits the host does, it is done after as many host steps as
were drawn at its acceptance, and the completion (R96; the count of host steps is the model's, log 4). -/
def Obligations.PendingCommandCompletes : Prop :=
  ∀ s : State, s.busy = true → (∀ e, e ∈ s.program.take s.latency → harmless e = true) →
    ∃ t, Host.Core.run Sys2Proof.core (s.latency + 1) s = .next t ∧ t.busy = false ∧ t.done = true

/-- A one-byte write, of any byte to any address, that races the completion (R187, R57). The pending command computes what
exec of the byte in CMD computes on the state before the write, in either order: if the completion comes first, the write
then has its idle effect of R53 on the completed state; if the write comes first, it is lost, and the completed state
differs by REJ only. Which order a run takes is the model's count of host steps: no step left, or one (DESIGN CHOICE,
log 4). -/
def Obligations.RacingWriteLandsOrIsLost : Prop :=
  ∀ (s : State) (a : Addr) (v : Byte) (rest : List HostEvent), s.busy = true →
    s.program = .bus (.write a v) 1 :: rest →
    ∃ t, exec (decodeByte s.cmd) s = .next t ∧ t.busy = false ∧ t.done = true ∧ t.rej = s.rej ∧
      (s.latency = 0 →
        Host.Core.run Sys2Proof.core 2 s = .next (idleWriteTable a.toNat v { t with program := rest })) ∧
      (s.latency = 1 →
        Host.Core.run Sys2Proof.core 2 s = .next { t with rej := true, program := rest })

/-- The sequencer leaves idle only by acceptance, and leaves pending only by completion or reset (R90). -/
def Obligations.BusyChangesOnlyAsStated : Prop :=
  ∀ s t : State, step s = .next t →
    (s.busy = false → t.busy = true → ∃ v rest, s.program = .bus (.write 0x000 v) 1 :: rest ∧ t.cmd = v) ∧
    (s.busy = true → t.busy = false → completionDue s = true ∨ ∃ rest, s.program = .reset :: rest)

/-- CSUM changes only by the completion of a successful CHECKSUM, or by a step that is a reset (R32, R38). -/
def Obligations.CsumChangesOnlyByChecksum : Prop :=
  ∀ s t : State, step s = .next t → t.csum ≠ s.csum →
    (completionDue s = true ∧ decodeByte s.cmd = .checksum ∧ t.errcode = 0) ∨
    (completionDue s = false ∧ ∃ rest, s.program = .reset :: rest)

/-- OUT and OUTLEN change only by the completion of a successful ENCODE, DECODE or UNPACK, or by a step that is a reset
(R27, R34). -/
def Obligations.OutputChangesOnlyByItsCommands : Prop :=
  ∀ s t : State, step s = .next t → (t.outlen ≠ s.outlen ∨ ∃ j, j < s.maxBytes ∧ outCell t j ≠ outCell s j) →
    (completionDue s = true ∧ t.errcode = 0 ∧
      (decodeByte s.cmd = .encode ∨ decodeByte s.cmd = .decode ∨ decodeByte s.cmd = .unpack)) ∨
    (completionDue s = false ∧ ∃ rest, s.program = .reset :: rest)

/-- While no command is pending, ERR and ERRCODE keep their values until a command is accepted or reset occurs (R165). -/
def Obligations.ErrorKeptUntilNextCommand : Prop :=
  ∀ s t : State, s.busy = false → step s = .next t → (t.err ≠ s.err ∨ t.errcode ≠ s.errcode) →
    t.errcode = 0 ∧ t.err = false ∧ (t.busy = true ∨ ∃ rest, s.program = .reset :: rest)

/-! ### Invariants -/

/-- Every step keeps the invariant: canonical memory of existing cells, a legal STATUS, ERR as ERRCODE says, a defined
code, OUTLEN within OUT (R29, R34, R51, R93, R160). -/
def Obligations.StepKeepsInvariant : Prop := ∀ s t : State, StateInv s → step s = .next t → StateInv t

/-- The invariant holds after reset (R38), and after a reset from any state (R180). -/
def Obligations.ResetMeetsInvariant : Prop := StateInv State.reset ∧ ∀ s : State, StateInv (hostReset s)

/-- STATUS[2:0] stays one of the four values R29 calls reachable. -/
def Obligations.StepKeepsStatusLegal : Prop :=
  ∀ s t : State, statusLegal s = true → step s = .next t →
    statusLegal t = true ∧ ((statusByte t).toNat % 8 = 0 ∨ (statusByte t).toNat % 8 = 1 ∨
      (statusByte t).toNat % 8 = 2 ∨ (statusByte t).toNat % 8 = 6) ∧ (statusByte t).toNat < 16

/-- Every step keeps the canonical form of memory, and every address that is no cell of a buffer reads 0x00. -/
def Obligations.StepKeepsMemoryCanonical : Prop :=
  ∀ s t : State, Memory.wf s.mem → cellsExist s → step s = .next t →
    Memory.wf t.mem ∧ ∀ a, isCellAddr t.maxBytes a = false → Memory.read t.mem a = 0

/-- Two canonical memories that read the same at every address are equal data. -/
def Obligations.CanonicalMemoryIsUnique : Prop :=
  ∀ m m' : Memory, Memory.wf m → Memory.wf m' → (∀ a, Memory.read m a = Memory.read m' a) → m = m'
end

