-- ==== Sys2Proof/Laws/Locate.lean ====
section
/-! SUPPORT. What the host address map names, case by case (R50, R51): cite these instead of unfolding `locate`. -/

namespace Sys2Proof.Machine

/-- The whole map: a register address below 0x010, an existing cell of one of the four windows, or a reserved address. -/
theorem locateNat_cases (m n : Nat) :
    (n < 0x010 ∧ locateNat m n = locateRegister n) ∨
    (0x100 ≤ n ∧ n ≤ 0x1FF ∧ n - 0x100 < m ∧ locateNat m n = .inCell (n - 0x100)) ∨
    (0x200 ≤ n ∧ n ≤ 0x2FF ∧ n - 0x200 < m ∧ locateNat m n = .outCell (n - 0x200)) ∨
    (0x400 ≤ n ∧ n ≤ 0x9FF ∧ n - 0x400 < 6 * m ∧ locateNat m n = .bsCell (n - 0x400)) ∨
    (0xC00 ≤ n ∧ n ≤ 0xC3F ∧ n - 0xC00 < 48 ∧ locateNat m n = .romCell (n - 0xC00)) ∨
    (0x010 ≤ n ∧ ¬(0x100 ≤ n ∧ n ≤ 0x1FF ∧ n - 0x100 < m) ∧ ¬(0x200 ≤ n ∧ n ≤ 0x2FF ∧ n - 0x200 < m) ∧
      ¬(0x400 ≤ n ∧ n ≤ 0x9FF ∧ n - 0x400 < 6 * m) ∧ ¬(0xC00 ≤ n ∧ n ≤ 0xC3F ∧ n - 0xC00 < 48) ∧
      locateNat m n = .reserved) := by
  unfold locateNat
  by_cases h0 : n < 0x010
  · exact .inl ⟨h0, if_pos h0⟩
  refine .inr ?_
  rw [if_neg h0]
  by_cases h1 : 0x100 ≤ n ∧ n ≤ 0x1FF
  · rw [if_pos h1, locateCell]
    by_cases hc : n - 0x100 < m
    · exact .inl ⟨h1.1, h1.2, hc, if_pos hc⟩
    · exact .inr (.inr (.inr (.inr ⟨by omega, by omega, by omega, by omega, by omega, if_neg hc⟩)))
  rw [if_neg h1]
  by_cases h2 : 0x200 ≤ n ∧ n ≤ 0x2FF
  · rw [if_pos h2, locateCell]
    by_cases hc : n - 0x200 < m
    · exact .inr (.inl ⟨h2.1, h2.2, hc, if_pos hc⟩)
    · exact .inr (.inr (.inr (.inr ⟨by omega, by omega, by omega, by omega, by omega, if_neg hc⟩)))
  rw [if_neg h2]
  by_cases h3 : 0x400 ≤ n ∧ n ≤ 0x9FF
  · rw [if_pos h3, locateCell]
    by_cases hc : n - 0x400 < 6 * m
    · exact .inr (.inr (.inl ⟨h3.1, h3.2, hc, if_pos hc⟩))
    · exact .inr (.inr (.inr (.inr ⟨by omega, by omega, by omega, by omega, by omega, if_neg hc⟩)))
  rw [if_neg h3]
  by_cases h4 : 0xC00 ≤ n ∧ n ≤ 0xC3F
  · rw [if_pos h4, locateCell]
    by_cases hc : n - 0xC00 < tblSize
    · exact .inr (.inr (.inr (.inl ⟨h4.1, h4.2, hc, if_pos hc⟩)))
    · exact .inr (.inr (.inr (.inr ⟨by omega, by omega, by omega, by omega, fun h => hc h.2.2, if_neg hc⟩)))
  · rw [if_neg h4]
    exact .inr (.inr (.inr (.inr ⟨by omega, by omega, by omega, by omega, by omega, rfl⟩)))

theorem locate_inCell {m j : Nat} {a : Addr} (hm : m ≤ 255) (ha : a.toNat = 0x100 + j) (hj : j < m) :
    locate m a = .inCell j := by
  rw [locate, ha]
  rcases locateNat_cases m (0x100 + j) with h | h | h | h | h | h
  · omega
  · rw [h.2.2.2, Nat.add_sub_cancel_left]
  all_goals omega

theorem locate_outCell {m j : Nat} {a : Addr} (hm : m ≤ 255) (ha : a.toNat = 0x200 + j) (hj : j < m) :
    locate m a = .outCell j := by
  rw [locate, ha]
  rcases locateNat_cases m (0x200 + j) with h | h | h | h | h | h
  · omega
  · omega
  · rw [h.2.2.2, Nat.add_sub_cancel_left]
  all_goals omega

theorem locate_bsCell {m j : Nat} {a : Addr} (hm : m ≤ 255) (ha : a.toNat = 0x400 + j) (hj : j < 6 * m) :
    locate m a = .bsCell j := by
  rw [locate, ha]
  rcases locateNat_cases m (0x400 + j) with h | h | h | h | h | h
  · omega
  · omega
  · omega
  · rw [h.2.2.2, Nat.add_sub_cancel_left]
  all_goals omega

theorem locate_romCell {m j : Nat} {a : Addr} (ha : a.toNat = 0xC00 + j) (hj : j < 48) :
    locate m a = .romCell j := by
  rw [locate, ha]
  rcases locateNat_cases m (0xC00 + j) with h | h | h | h | h | h
  · omega
  · omega
  · omega
  · omega
  · rw [h.2.2.2, Nat.add_sub_cancel_left]
  · omega

theorem locateRegister_ne_cell (n i : Nat) :
    locateRegister n ≠ .inCell i ∧ locateRegister n ≠ .outCell i ∧ locateRegister n ≠ .bsCell i ∧
      locateRegister n ≠ .romCell i := by
  unfold locateRegister
  split_ifs <;> simp only [ne_eq, reduceCtorEq, not_false_eq_true, and_self]

/-- A cell of the IN window that exists has a small index (R51). -/
theorem locateNat_inCell {m n i : Nat} (h : locateNat m n = .inCell i) : i < m ∧ n = 0x100 + i := by
  rcases locateNat_cases m n with g | g | g | g | g | g
  · exact absurd (g.2.symm.trans h) (locateRegister_ne_cell n i).1
  · have := Loc.inCell.inj (g.2.2.2.symm.trans h)
    exact ⟨by omega, by omega⟩
  · cases g.2.2.2.symm.trans h
  · cases g.2.2.2.symm.trans h
  · cases g.2.2.2.symm.trans h
  · cases g.2.2.2.2.2.symm.trans h

/-- A cell of the BS window that exists has a small index (R51). -/
theorem locateNat_bsCell {m n i : Nat} (h : locateNat m n = .bsCell i) : i < 6 * m ∧ n = 0x400 + i := by
  rcases locateNat_cases m n with g | g | g | g | g | g
  · exact absurd (g.2.symm.trans h) (locateRegister_ne_cell n i).2.2.1
  · cases g.2.2.2.symm.trans h
  · cases g.2.2.2.symm.trans h
  · have := Loc.bsCell.inj (g.2.2.2.symm.trans h)
    exact ⟨by omega, by omega⟩
  · cases g.2.2.2.symm.trans h
  · cases g.2.2.2.2.2.symm.trans h

/-- Only 0x001 names STATUS (R50). -/
theorem locateNat_status {m n : Nat} (h : locateNat m n = .status) : n = 1 := by
  unfold locateNat locateCell locateRegister at h
  split_ifs at h
  assumption

/-- Only 0x000 names CMD (R50). -/
theorem locateNat_cmd {m n : Nat} (h : locateNat m n = .cmd) : n = 0 := by
  unfold locateNat locateCell locateRegister at h
  split_ifs at h
  assumption

end Sys2Proof.Machine
end

