-- ==== Sys2Proof/Laws/Memory.lean ====
section
/-! SUPPORT. The laws of the sparse memory: read after write, block writes, and that every operation keeps the canonical
form. -/

namespace Sys2Proof.Machine

theorem Memory.read_insert (m : Memory) (a b : Nat) (v : Byte) :
    Memory.read (Memory.insert m a v) b = if a = b then v else Memory.read m b := by
  induction m with
  | nil => simp [Memory.insert, Memory.read]
  | cons c m ih =>
    obtain ⟨c, w⟩ := c
    by_cases h1 : a < c
    · simp [Memory.insert, Memory.read, h1]
    · by_cases h2 : a = c
      · subst h2
        by_cases h3 : a = b <;> simp [Memory.insert, Memory.read, h3]
      · simp only [Memory.insert, h1, h2, if_false, Memory.read, ih]
        by_cases h3 : c = b
        · simp [h3, show a ≠ b from fun h => h2 (h.trans h3.symm)]
        · simp [h3]

theorem Memory.read_erase (m : Memory) (a b : Nat) :
    Memory.read (Memory.erase m a) b = if a = b then unlisted else Memory.read m b := by
  induction m with
  | nil => simp [Memory.erase, Memory.read]
  | cons c m ih =>
    obtain ⟨c, w⟩ := c
    simp only [Memory.erase] at ih ⊢
    by_cases h2 : c = a
    · subst h2
      by_cases h3 : c = b <;> simp_all [Memory.read]
    · rw [List.filter_cons_of_pos (by simpa using h2)]
      by_cases h3 : c = b
      · simp [Memory.read, h3, show a ≠ b from fun h => h2 (h3.trans h.symm)]
      · simp [Memory.read, h3, ih]

/-- A write changes the byte of its address and no other. -/
@[simp] theorem Memory.read_write (m : Memory) (a b : Nat) (v : Byte) :
    Memory.read (Memory.write m a v) b = if a = b then v else Memory.read m b := by
  unfold Memory.write
  split
  · next h => rw [Memory.read_erase, h]
  · exact Memory.read_insert m a b v

/-- A block write changes the bytes of its block and no other. -/
theorem Memory.read_writeBlock (vs : List Byte) (m : Memory) (a b : Nat) :
    Memory.read (Memory.writeBlock m a vs) b =
      if a ≤ b ∧ b < a + vs.length then vs.getD (b - a) 0 else Memory.read m b := by
  induction vs generalizing m a with
  | nil => simp [Memory.writeBlock]
  | cons v vs ih =>
    rw [Memory.writeBlock, ih, Memory.read_write]
    by_cases h : a = b
    · subst h; simp
    · by_cases hb : a + 1 ≤ b ∧ b < a + 1 + vs.length
      · have hs : b - a = (b - (a + 1)) + 1 := by omega
        rw [if_pos hb, if_pos (by simp only [List.length_cons]; omega), hs, List.getD_cons_succ]
      · rw [if_neg hb, if_neg h, if_neg (by simp only [List.length_cons]; omega)]

theorem Memory.read_writeBlock_inside {vs : List Byte} {m : Memory} {a i : Nat} (h : i < vs.length) :
    Memory.read (Memory.writeBlock m a vs) (a + i) = vs.getD i 0 := by
  rw [Memory.read_writeBlock, if_pos (by omega), Nat.add_sub_cancel_left]

theorem Memory.read_writeBlock_outside {vs : List Byte} {m : Memory} {a b : Nat}
    (h : ¬(a ≤ b ∧ b < a + vs.length)) :
    Memory.read (Memory.writeBlock m a vs) b = Memory.read m b := by
  rw [Memory.read_writeBlock, if_neg h]

@[simp] theorem Memory.length_readBlock (m : Memory) (a n : Nat) : (Memory.readBlock m a n).length = n := by
  simp [Memory.readBlock]

theorem Memory.getD_readBlock {m : Memory} {a n i : Nat} (h : i < n) (d : Byte) :
    (Memory.readBlock m a n).getD i d = Memory.read m (a + i) := by
  simp [Memory.readBlock, List.getD, h]

theorem Memory.getElem_readBlock {m : Memory} {a n i : Nat} (h : i < (Memory.readBlock m a n).length) :
    (Memory.readBlock m a n)[i] = Memory.read m (a + i) := by
  simp [Memory.readBlock]

theorem Memory.mem_readBlock {m : Memory} {a n : Nat} {b : Byte} :
    b ∈ Memory.readBlock m a n ↔ ∃ i, i < n ∧ Memory.read m (a + i) = b := by
  simp [Memory.readBlock]

/-- Two blocks are equal when they have the same bytes at every offset. -/
theorem Memory.readBlock_congr {m m' : Memory} {a a' n : Nat}
    (h : ∀ i, i < n → Memory.read m (a + i) = Memory.read m' (a' + i)) :
    Memory.readBlock m a n = Memory.readBlock m' a' n :=
  List.map_congr_left fun i hi => h i (List.mem_range.mp hi)

theorem Memory.mem_insert {m : Memory} {a : Nat} {v : Byte} {c : Host.Cell}
    (h : c ∈ Memory.insert m a v) : c = (a, v) ∨ c ∈ m := by
  induction m with
  | nil => exact .inl (by simpa [Memory.insert] using h)
  | cons d m ih =>
    obtain ⟨d, w⟩ := d
    simp only [Memory.insert] at h
    split at h
    · simpa using h
    · split at h
      · rcases List.mem_cons.mp h with h | h
        · exact .inl h
        · exact .inr (List.mem_cons_of_mem _ h)
      · rcases List.mem_cons.mp h with h | h
        · exact .inr (h ▸ List.mem_cons_self)
        · exact (ih h).imp id (List.mem_cons_of_mem _)

theorem Memory.mem_write {m : Memory} {a : Nat} {v : Byte} {c : Host.Cell}
    (h : c ∈ Memory.write m a v) : c = (a, v) ∨ c ∈ m := by
  unfold Memory.write at h
  split at h
  · exact .inr (List.mem_filter.mp h).1
  · exact Memory.mem_insert h

theorem Memory.insert_sorted {m : Memory} {a : Nat} {v : Byte}
    (h : List.Pairwise (fun c d : Host.Cell => c.1 < d.1) m) :
    List.Pairwise (fun c d : Host.Cell => c.1 < d.1) (Memory.insert m a v) := by
  induction m with
  | nil => simp [Memory.insert]
  | cons c m ih =>
    obtain ⟨c, w⟩ := c
    have hc : ∀ d ∈ m, c < d.1 := (List.pairwise_cons.mp h).1
    simp only [Memory.insert]
    split
    · next hlt =>
      refine List.pairwise_cons.mpr ⟨fun d hd => ?_, h⟩
      rcases List.mem_cons.mp hd with rfl | hd
      · exact hlt
      · exact Nat.lt_trans hlt (hc d hd)
    · split
      · next heq => exact List.pairwise_cons.mpr ⟨fun d hd => heq ▸ hc d hd, (List.pairwise_cons.mp h).2⟩
      · next hlt hne =>
        refine List.pairwise_cons.mpr ⟨fun d hd => ?_, ih (List.pairwise_cons.mp h).2⟩
        rcases Memory.mem_insert hd with rfl | hd
        · exact Nat.lt_of_le_of_ne (Nat.not_lt.mp hlt) (Ne.symm hne)
        · exact hc d hd

/-- A write keeps the canonical form. -/
theorem Memory.write_wf {m : Memory} (h : Memory.wf m) (a : Nat) (v : Byte) : Memory.wf (Memory.write m a v) := by
  refine ⟨?_, fun c hc => ?_⟩
  · unfold Memory.write
    split
    · exact h.1.filter _
    · exact Memory.insert_sorted h.1
  · rcases eq_or_ne v unlisted with hv | hv
    · rw [Memory.write, if_pos hv] at hc
      exact h.2 c (List.mem_filter.mp hc).1
    · rcases Memory.mem_write hc with rfl | hc
      · exact hv
      · exact h.2 c hc

/-- A block write keeps the canonical form. -/
theorem Memory.writeBlock_wf {m : Memory} (h : Memory.wf m) (a : Nat) (vs : List Byte) :
    Memory.wf (Memory.writeBlock m a vs) := by
  induction vs generalizing m a with
  | nil => exact h
  | cons v vs ih => exact ih (Memory.write_wf h a v) (a + 1)

theorem Memory.mem_writeBlock {vs : List Byte} {m : Memory} {a : Nat} {c : Host.Cell}
    (h : c ∈ Memory.writeBlock m a vs) : (a ≤ c.1 ∧ c.1 < a + vs.length) ∨ c ∈ m := by
  induction vs generalizing m a with
  | nil => exact .inr h
  | cons v vs ih =>
    rcases ih h with h | h
    · exact .inl ⟨by omega, by simp only [List.length_cons]; omega⟩
    · rcases Memory.mem_write h with rfl | h
      · exact .inl ⟨Nat.le_refl _, by simp only [List.length_cons]; omega⟩
      · exact .inr h

theorem cellAddrs_sorted {n : Nat} (h : n ≤ 255) : List.Pairwise (· < ·) (cellAddrs n) := by
  simp only [cellAddrs, List.pairwise_append, List.mem_append, List.mem_range'_1, inBase, outBase, bsBase]
  refine ⟨⟨List.pairwise_lt_range', List.pairwise_lt_range', ?_⟩, List.pairwise_lt_range', ?_⟩
  · intro a ha b hb; omega
  · intro a ha b hb; omega

theorem mem_cellAddrs {n a : Nat} :
    a ∈ cellAddrs n ↔ (inBase ≤ a ∧ a < inBase + n) ∨ (outBase ≤ a ∧ a < outBase + n) ∨
      (bsBase ≤ a ∧ a < bsBase + 6 * n) := by
  simp only [cellAddrs, List.mem_append, List.mem_range'_1, or_assoc]

/-- The buffers after reset are in canonical form. -/
theorem Memory.drawn_wf {n : Nat} (h : n ≤ 255) (k : Nat) : Memory.wf (Memory.drawn n k) := by
  refine ⟨List.Pairwise.filter _ (List.pairwise_map.mpr ((cellAddrs_sorted h).imp id)), fun c hc => ?_⟩
  simpa using (List.mem_filter.mp hc).2

theorem Memory.mem_drawn {n k : Nat} {c : Host.Cell} (h : c ∈ Memory.drawn n k) : c.1 ∈ cellAddrs n := by
  obtain ⟨a, ha, rfl⟩ := List.mem_map.mp (List.mem_filter.mp h).1
  exact ha

end Sys2Proof.Machine
end

