-- ==== Sys2Proof/Laws/PerInstr.lean ====
section
/-! SUPPORT. Statements made per instruction, about its syntax: one lemma per constructor of Instr. -/

namespace Sys2Proof.Laws.Encoding

/-- The encoded byte of a well-formed instruction lies in the row of the opcode table the instruction stands for
(R73, R74). -/
def Statement (i : Instr) : Prop := i.wellFormed = true → i.row.covers (encodeByte i) = true

theorem nop : Statement .nop := fun _ => rfl

theorem encode : Statement .encode := fun _ => rfl

theorem decode : Statement .decode := fun _ => rfl

theorem checksum : Statement .checksum := fun _ => rfl

theorem pack : Statement .pack := fun _ => rfl

theorem unpack : Statement .unpack := fun _ => rfl

theorem reserved06 (c : Byte) : Statement (.reserved06 c) := id

theorem reserved80 (c : Byte) : Statement (.reserved80 c) := id

theorem reserved40 (c : Byte) : Statement (.reserved40 c) := id

theorem reserved20 (c : Byte) : Statement (.reserved20 c) := id

theorem reserved10 (c : Byte) : Statement (.reserved10 c) := id

theorem reserved08 (c : Byte) : Statement (.reserved08 c) := id

end Sys2Proof.Laws.Encoding
end

