-- ==== Sys2Proof/Laws/State.lean ====
section
/-! SUPPORT. What each update of the state does to each field, so that no later proof unfolds a record update. -/

namespace Sys2Proof.Machine

@[simp] theorem finish_sizePred (code : Nibble) (s : State) : (finish code s).sizePred = s.sizePred := rfl
@[simp] theorem finish_mem (code : Nibble) (s : State) : (finish code s).mem = s.mem := rfl
@[simp] theorem finish_cmd (code : Nibble) (s : State) : (finish code s).cmd = s.cmd := rfl
@[simp] theorem finish_busy (code : Nibble) (s : State) : (finish code s).busy = false := rfl
@[simp] theorem finish_done (code : Nibble) (s : State) : (finish code s).done = true := rfl
@[simp] theorem finish_err (code : Nibble) (s : State) : (finish code s).err = (code != 0) := rfl
@[simp] theorem finish_rej (code : Nibble) (s : State) : (finish code s).rej = s.rej := rfl
@[simp] theorem finish_errcode (code : Nibble) (s : State) : (finish code s).errcode = code := rfl
@[simp] theorem finish_csum (code : Nibble) (s : State) : (finish code s).csum = s.csum := rfl
@[simp] theorem finish_len (code : Nibble) (s : State) : (finish code s).len = s.len := rfl
@[simp] theorem finish_outlen (code : Nibble) (s : State) : (finish code s).outlen = s.outlen := rfl
@[simp] theorem finish_bslen (code : Nibble) (s : State) : (finish code s).bslen = s.bslen := rfl
@[simp] theorem finish_latency (code : Nibble) (s : State) : (finish code s).latency = 0 := rfl
@[simp] theorem finish_draws (code : Nibble) (s : State) : (finish code s).draws = s.draws := rfl
@[simp] theorem finish_program (code : Nibble) (s : State) : (finish code s).program = s.program := rfl
@[simp] theorem finish_replies (code : Nibble) (s : State) : (finish code s).replies = s.replies := rfl
@[simp] theorem finish_maxBytes (code : Nibble) (s : State) : (finish code s).maxBytes = s.maxBytes := rfl

@[simp] theorem accept_sizePred (v : Byte) (s : State) : (accept v s).sizePred = s.sizePred := rfl
@[simp] theorem accept_mem (v : Byte) (s : State) : (accept v s).mem = s.mem := rfl
@[simp] theorem accept_cmd (v : Byte) (s : State) : (accept v s).cmd = v := rfl
@[simp] theorem accept_busy (v : Byte) (s : State) : (accept v s).busy = true := rfl
@[simp] theorem accept_done (v : Byte) (s : State) : (accept v s).done = false := rfl
@[simp] theorem accept_err (v : Byte) (s : State) : (accept v s).err = false := rfl
@[simp] theorem accept_rej (v : Byte) (s : State) : (accept v s).rej = s.rej := rfl
@[simp] theorem accept_errcode (v : Byte) (s : State) : (accept v s).errcode = 0 := rfl
@[simp] theorem accept_csum (v : Byte) (s : State) : (accept v s).csum = s.csum := rfl
@[simp] theorem accept_len (v : Byte) (s : State) : (accept v s).len = s.len := rfl
@[simp] theorem accept_outlen (v : Byte) (s : State) : (accept v s).outlen = s.outlen := rfl
@[simp] theorem accept_bslen (v : Byte) (s : State) : (accept v s).bslen = s.bslen := rfl
@[simp] theorem accept_latency (v : Byte) (s : State) : (accept v s).latency = Config.latency s.draws := rfl
@[simp] theorem accept_draws (v : Byte) (s : State) : (accept v s).draws = s.draws + 1 := rfl
@[simp] theorem accept_program (v : Byte) (s : State) : (accept v s).program = s.program := rfl
@[simp] theorem accept_replies (v : Byte) (s : State) : (accept v s).replies = s.replies := rfl
@[simp] theorem accept_maxBytes (v : Byte) (s : State) : (accept v s).maxBytes = s.maxBytes := rfl

@[simp] theorem hostRead_sizePred (a : Addr) (s : State) : (hostRead a s).sizePred = s.sizePred := rfl
@[simp] theorem hostRead_mem (a : Addr) (s : State) : (hostRead a s).mem = s.mem := rfl
@[simp] theorem hostRead_cmd (a : Addr) (s : State) : (hostRead a s).cmd = s.cmd := rfl
@[simp] theorem hostRead_busy (a : Addr) (s : State) : (hostRead a s).busy = s.busy := rfl
@[simp] theorem hostRead_done (a : Addr) (s : State) : (hostRead a s).done = s.done := rfl
@[simp] theorem hostRead_err (a : Addr) (s : State) : (hostRead a s).err = s.err := rfl
@[simp] theorem hostRead_rej (a : Addr) (s : State) : (hostRead a s).rej = s.rej := rfl
@[simp] theorem hostRead_errcode (a : Addr) (s : State) : (hostRead a s).errcode = s.errcode := rfl
@[simp] theorem hostRead_csum (a : Addr) (s : State) : (hostRead a s).csum = s.csum := rfl
@[simp] theorem hostRead_len (a : Addr) (s : State) : (hostRead a s).len = s.len := rfl
@[simp] theorem hostRead_outlen (a : Addr) (s : State) : (hostRead a s).outlen = s.outlen := rfl
@[simp] theorem hostRead_bslen (a : Addr) (s : State) : (hostRead a s).bslen = s.bslen := rfl
@[simp] theorem hostRead_latency (a : Addr) (s : State) : (hostRead a s).latency = s.latency := rfl
@[simp] theorem hostRead_draws (a : Addr) (s : State) :
    (hostRead a s).draws = if readIsOpen s a then s.draws + 1 else s.draws := rfl
@[simp] theorem hostRead_program (a : Addr) (s : State) : (hostRead a s).program = s.program := rfl
@[simp] theorem hostRead_replies (a : Addr) (s : State) : (hostRead a s).replies = s.replies ++ [busByte s a] := rfl
@[simp] theorem hostRead_maxBytes (a : Addr) (s : State) : (hostRead a s).maxBytes = s.maxBytes := rfl

@[simp] theorem hostReset_sizePred (s : State) : (hostReset s).sizePred = s.sizePred := rfl
@[simp] theorem hostReset_mem (s : State) : (hostReset s).mem = Memory.drawn s.maxBytes s.draws := rfl
@[simp] theorem hostReset_cmd (s : State) : (hostReset s).cmd = 0 := rfl
@[simp] theorem hostReset_busy (s : State) : (hostReset s).busy = false := rfl
@[simp] theorem hostReset_done (s : State) : (hostReset s).done = false := rfl
@[simp] theorem hostReset_err (s : State) : (hostReset s).err = false := rfl
@[simp] theorem hostReset_rej (s : State) : (hostReset s).rej = false := rfl
@[simp] theorem hostReset_errcode (s : State) : (hostReset s).errcode = 0 := rfl
@[simp] theorem hostReset_csum (s : State) : (hostReset s).csum = 0 := rfl
@[simp] theorem hostReset_len (s : State) : (hostReset s).len = 0 := rfl
@[simp] theorem hostReset_outlen (s : State) : (hostReset s).outlen = 0 := rfl
@[simp] theorem hostReset_bslen (s : State) : (hostReset s).bslen = 0 := rfl
@[simp] theorem hostReset_latency (s : State) : (hostReset s).latency = 0 := rfl
@[simp] theorem hostReset_draws (s : State) : (hostReset s).draws = s.draws + 1 := rfl
@[simp] theorem hostReset_program (s : State) : (hostReset s).program = s.program := rfl
@[simp] theorem hostReset_replies (s : State) : (hostReset s).replies = s.replies := rfl
@[simp] theorem hostReset_maxBytes (s : State) : (hostReset s).maxBytes = s.maxBytes := rfl

@[simp] theorem writeOutput_sizePred (bytes : List Byte) (s : State) :
    (writeOutput bytes s).sizePred = s.sizePred := rfl
@[simp] theorem writeOutput_mem (bytes : List Byte) (s : State) :
    (writeOutput bytes s).mem = Memory.writeBlock s.mem outBase bytes := rfl
@[simp] theorem writeOutput_cmd (bytes : List Byte) (s : State) : (writeOutput bytes s).cmd = s.cmd := rfl
@[simp] theorem writeOutput_busy (bytes : List Byte) (s : State) : (writeOutput bytes s).busy = s.busy := rfl
@[simp] theorem writeOutput_done (bytes : List Byte) (s : State) : (writeOutput bytes s).done = s.done := rfl
@[simp] theorem writeOutput_err (bytes : List Byte) (s : State) : (writeOutput bytes s).err = s.err := rfl
@[simp] theorem writeOutput_rej (bytes : List Byte) (s : State) : (writeOutput bytes s).rej = s.rej := rfl
@[simp] theorem writeOutput_errcode (bytes : List Byte) (s : State) :
    (writeOutput bytes s).errcode = s.errcode := rfl
@[simp] theorem writeOutput_csum (bytes : List Byte) (s : State) : (writeOutput bytes s).csum = s.csum := rfl
@[simp] theorem writeOutput_len (bytes : List Byte) (s : State) : (writeOutput bytes s).len = s.len := rfl
@[simp] theorem writeOutput_outlen (bytes : List Byte) (s : State) :
    (writeOutput bytes s).outlen = BitVec.ofNat 8 bytes.length := rfl
@[simp] theorem writeOutput_bslen (bytes : List Byte) (s : State) : (writeOutput bytes s).bslen = s.bslen := rfl
@[simp] theorem writeOutput_latency (bytes : List Byte) (s : State) :
    (writeOutput bytes s).latency = s.latency := rfl
@[simp] theorem writeOutput_draws (bytes : List Byte) (s : State) : (writeOutput bytes s).draws = s.draws := rfl
@[simp] theorem writeOutput_program (bytes : List Byte) (s : State) :
    (writeOutput bytes s).program = s.program := rfl
@[simp] theorem writeOutput_replies (bytes : List Byte) (s : State) :
    (writeOutput bytes s).replies = s.replies := rfl
@[simp] theorem writeOutput_maxBytes (bytes : List Byte) (s : State) : (writeOutput bytes s).maxBytes = s.maxBytes := rfl

@[simp] theorem writeBits_sizePred (bits : List Byte) (s : State) : (writeBits bits s).sizePred = s.sizePred := rfl
@[simp] theorem writeBits_mem (bits : List Byte) (s : State) :
    (writeBits bits s).mem = Memory.writeBlock s.mem bsBase bits := rfl
@[simp] theorem writeBits_cmd (bits : List Byte) (s : State) : (writeBits bits s).cmd = s.cmd := rfl
@[simp] theorem writeBits_busy (bits : List Byte) (s : State) : (writeBits bits s).busy = s.busy := rfl
@[simp] theorem writeBits_done (bits : List Byte) (s : State) : (writeBits bits s).done = s.done := rfl
@[simp] theorem writeBits_err (bits : List Byte) (s : State) : (writeBits bits s).err = s.err := rfl
@[simp] theorem writeBits_rej (bits : List Byte) (s : State) : (writeBits bits s).rej = s.rej := rfl
@[simp] theorem writeBits_errcode (bits : List Byte) (s : State) : (writeBits bits s).errcode = s.errcode := rfl
@[simp] theorem writeBits_csum (bits : List Byte) (s : State) : (writeBits bits s).csum = s.csum := rfl
@[simp] theorem writeBits_len (bits : List Byte) (s : State) : (writeBits bits s).len = s.len := rfl
@[simp] theorem writeBits_outlen (bits : List Byte) (s : State) : (writeBits bits s).outlen = s.outlen := rfl
@[simp] theorem writeBits_bslen (bits : List Byte) (s : State) :
    (writeBits bits s).bslen = BitVec.ofNat 11 bits.length := rfl
@[simp] theorem writeBits_latency (bits : List Byte) (s : State) : (writeBits bits s).latency = s.latency := rfl
@[simp] theorem writeBits_draws (bits : List Byte) (s : State) : (writeBits bits s).draws = s.draws := rfl
@[simp] theorem writeBits_program (bits : List Byte) (s : State) : (writeBits bits s).program = s.program := rfl
@[simp] theorem writeBits_replies (bits : List Byte) (s : State) : (writeBits bits s).replies = s.replies := rfl
@[simp] theorem writeBits_maxBytes (bits : List Byte) (s : State) : (writeBits bits s).maxBytes = s.maxBytes := rfl

theorem raiseContractError_eq (e : ContractError) (s : State) : raiseContractError e s = finish e.code s := rfl

/-- MAX_BYTES is from 1 to 255 (R7). -/
theorem State.maxBytes_bounds (s : State) : 1 ≤ s.maxBytes ∧ s.maxBytes ≤ 255 := by
  have := s.sizePred.isLt
  simp only [State.maxBytes]
  omega

end Sys2Proof.Machine
end

