-- ==== Sys2Proof/Laws/Units.lean ====
section
/-! SUPPORT. What the functions of the three units compute, byte by byte: the cipher's transform, the checksum's sum, the
bit packer's groups. -/

namespace Sys2Proof.Machine

theorem keyIndex_eq_div (b : Byte) : keyIndex b = b.toNat / 8 := by
  simp [keyIndex, BitVec.toNat_ushiftRight, Nat.shiftRight_eq_div_pow]

/-- The checks of R112 pass exactly when all four conditions hold. -/
theorem checkCipher_ok_iff {maxBytes n : Nat} {b : Byte} :
    checkCipher maxBytes n b = .ok () ↔ n ≤ maxBytes ∧ 1 ≤ n ∧ keyIndex b ≤ 11 ∧ 4 * keyIndex b + n ≤ 48 := by
  simp only [checkCipher, tblSize]
  by_cases h1 : n ≤ maxBytes <;> by_cases h2 : n = 0 <;> by_cases h3 : 11 < keyIndex b <;>
    by_cases h4 : 48 < 4 * keyIndex b + n <;> (simp [h1, h2, h3, h4]; try omega)

@[simp] theorem length_xorTable (bs : List Byte) (pos : Nat) : (xorTable pos bs).length = bs.length := by
  induction bs generalizing pos with
  | nil => rfl
  | cons b bs ih => simp [xorTable, ih]

theorem getD_xorTable {bs : List Byte} {pos i : Nat} (h : i < bs.length) :
    (xorTable pos bs).getD i 0 = bs.getD i 0 ^^^ romAt (pos + i) := by
  induction bs generalizing pos i with
  | nil => simp at h
  | cons b bs ih =>
    cases i with
    | zero => simp [xorTable]
    | succ i =>
      rw [xorTable, List.getD_cons_succ, List.getD_cons_succ, ih (by simpa using h)]
      congr 2
      omega

/-- "same length as input" (R113). -/
@[simp] theorem length_transform (bs : List Byte) : (transform bs).length = bs.length := by
  cases bs with
  | nil => rfl
  | cons b bs => simp [transform, fixupKey, xorTable]

/-- Byte 0 of the transform: low 3 bits XORed, bits 7:3 the key (R116). -/
theorem getD_transform_zero {bs : List Byte} (h : 0 < bs.length) :
    (transform bs).getD 0 0 =
      ((bs.getD 0 0 ^^^ romAt (4 * keyIndex (bs.getD 0 0))) &&& 0x07#8) ||| ((bs.getD 0 0 >>> 3) <<< 3) := by
  cases bs with
  | nil => simp at h
  | cons b bs => simp [transform, fixupKey, xorTable]

/-- A later byte of the transform is XORed with its table entry (R113). -/
theorem getD_transform_pos {bs : List Byte} {i : Nat} (h0 : 0 < i) (h : i < bs.length) :
    (transform bs).getD i 0 = bs.getD i 0 ^^^ romAt (4 * keyIndex (bs.getD 0 0) + i) := by
  cases bs with
  | nil => simp at h
  | cons b bs =>
    obtain ⟨i, rfl⟩ : ∃ j, i = j + 1 := ⟨i - 1, by omega⟩
    have hi : i < bs.length := by simpa using h
    simp only [transform, fixupKey, xorTable, List.getD_cons_succ, List.getD_cons_zero]
    rw [getD_xorTable hi]
    congr 2
    omega

/-- The wrapped sum is the exact sum modulo 256, from any start (R130). -/
theorem toNat_foldl_add (bs : List Byte) (a : Byte) :
    (bs.foldl (· + ·) a).toNat = (a.toNat + (bs.map BitVec.toNat).sum) % 256 := by
  induction bs generalizing a with
  | nil => simpa using (Nat.mod_eq_of_lt a.isLt).symm
  | cons b bs ih =>
    rw [List.foldl_cons, ih]
    simp only [BitVec.toNat_add, List.map_cons, List.sum_cons]
    omega

@[simp] theorem length_groupOf (v : Byte) : (groupOf v).length = 6 := rfl

@[simp] theorem length_packBits (bs : List Byte) : (packBits bs).length = 6 * bs.length := by
  induction bs with
  | nil => rfl
  | cons b bs ih =>
    simp only [packBits, List.flatMap_cons, List.length_append, length_groupOf, List.length_cons] at ih ⊢
    omega

/-- Symbol `6j + t` of the string is symbol `t` of byte `j`'s group (R59). -/
theorem getD_packBits {bs : List Byte} {j t : Nat} (hj : j < bs.length) (ht : t < 6) :
    (packBits bs).getD (6 * j + t) 0 = (groupOf (bs.getD j 0)).getD t 0 := by
  induction bs generalizing j with
  | nil => simp at hj
  | cons b bs ih =>
    rw [packBits, List.flatMap_cons]
    cases j with
    | zero => rw [List.getD_append _ _ _ _ (by simpa using ht)]; simp
    | succ j =>
      rw [List.getD_append_right _ _ _ _ (by rw [length_groupOf]; omega), length_groupOf, List.getD_cons_succ,
        show 6 * (j + 1) + t - 6 = 6 * j + t by omega]
      exact ih (by simpa using hj)

theorem isSymbol_symbolOf (b : Bool) : isSymbol (symbolOf b) = true := by cases b <;> rfl

theorem groupOf_isSymbol (v : Byte) : (groupOf v).all isSymbol = true := by
  simp [groupOf, isSymbol_symbolOf]

/-- `value(group(v)) = v` for every `v` below 64 (R142). -/
theorem groupValue_groupOf : ∀ v : Byte, v.toNat < 64 →
    groupValue (symbolOf (v.getLsbD 5)) (symbolOf (v.getLsbD 4)) (symbolOf (v.getLsbD 3))
      (symbolOf (v.getLsbD 2)) (symbolOf (v.getLsbD 1)) (symbolOf (v.getLsbD 0)) = v := by
  decide

theorem unpackBits_packBits {bs : List Byte} (h : ∀ b ∈ bs, b.toNat < 64) : unpackBits (packBits bs) = bs := by
  induction bs with
  | nil => rfl
  | cons b bs ih =>
    have hb := groupValue_groupOf b (h b List.mem_cons_self)
    have hbs := ih fun c hc => h c (List.mem_cons_of_mem _ hc)
    simp only [packBits, List.flatMap_cons, groupOf, List.cons_append, List.nil_append, unpackBits, hb] at hbs ⊢
    rw [hbs]

/-- A string with no full group is short. -/
theorem length_lt_of_no_group {bs : List Byte}
    (h : ∀ s0 s1 s2 s3 s4 s5 rest, bs = s0 :: s1 :: s2 :: s3 :: s4 :: s5 :: rest → False) : bs.length < 6 := by
  by_contra hlt
  obtain ⟨s0, s1, s2, s3, s4, s5, rest, rfl⟩ : ∃ s0 s1 s2 s3 s4 s5 rest,
      bs = s0 :: s1 :: s2 :: s3 :: s4 :: s5 :: rest := by
    rcases bs with _ | ⟨a, _ | ⟨b, _ | ⟨c, _ | ⟨d, _ | ⟨e, _ | ⟨f, bs⟩⟩⟩⟩⟩⟩ <;> simp at hlt ⊢
  exact h _ _ _ _ _ _ _ rfl

/-- One output byte per full group (R147). -/
theorem length_unpackBits (bs : List Byte) : (unpackBits bs).length = bs.length / 6 := by
  induction bs using unpackBits.induct with
  | case1 s0 s1 s2 s3 s4 s5 rest ih => simp only [unpackBits, List.length_cons, ih]; omega
  | case2 bs h =>
    have hlt := length_lt_of_no_group h
    rw [unpackBits, List.length_nil, Nat.div_eq_of_lt hlt]
    exact h

/-- Output byte `j` is the value of symbols `6j` to `6j+5` (R143). -/
theorem getD_unpackBits {bs : List Byte} {j : Nat} (h : 6 * j + 5 < bs.length) :
    (unpackBits bs).getD j 0 = groupValue (bs.getD (6 * j) 0) (bs.getD (6 * j + 1) 0) (bs.getD (6 * j + 2) 0)
      (bs.getD (6 * j + 3) 0) (bs.getD (6 * j + 4) 0) (bs.getD (6 * j + 5) 0) := by
  induction bs using unpackBits.induct generalizing j with
  | case1 s0 s1 s2 s3 s4 s5 rest ih =>
    cases j with
    | zero => simp [unpackBits]
    | succ j =>
      simp only [List.length_cons] at h
      simp only [unpackBits, List.getD_cons_succ, Nat.mul_add, Nat.mul_one]
      rw [ih (by omega)]
  | case2 bs hne =>
    have := length_lt_of_no_group hne
    omega

@[simp] theorem length_inputBytes (s : State) : (inputBytes s).length = s.len.toNat := by simp [inputBytes]

@[simp] theorem length_fullGroups (s : State) : (fullGroups s).length = 6 * (s.bslen.toNat / 6) := by
  simp [fullGroups]

theorem getD_inputBytes {s : State} {i : Nat} (h : i < s.len.toNat) : (inputBytes s).getD i 0 = inCell s i :=
  Memory.getD_readBlock h 0

theorem getD_fullGroups {s : State} {i : Nat} (h : i < 6 * (s.bslen.toNat / 6)) :
    (fullGroups s).getD i 0 = Memory.read s.mem (bsBase + i) :=
  Memory.getD_readBlock h 0

end Sys2Proof.Machine
end

