-- ==== Sys2Proof/Laws/Steps.lean ====
section
/-! SUPPORT. What the shared operations and a step can do: one lemma each, which later proofs cite instead of unfolding
the machine. -/

namespace Sys2Proof.Machine

@[simp] theorem complete_ok (t s : State) : complete (.ok t) s = .next (finish 0 t) := rfl

@[simp] theorem complete_error (e : ContractError) (s : State) :
    complete (.error e) s = .next (finish e.code s) := rfl

@[simp] theorem checkLen_le {maxBytes n : Nat} (h : n ≤ maxBytes) : checkLen maxBytes n = .ok () := if_pos h

@[simp] theorem checkLen_gt {maxBytes n : Nat} (h : maxBytes < n) : checkLen maxBytes n = .error .lenRange :=
  if_neg (Nat.not_le.mpr h)

/-- Everything the completion of a command can do to the state: report an error and write nothing; or succeed and write
nothing (NOP), CSUM (CHECKSUM), a block of OUT that fits (ENCODE, DECODE, UNPACK), or a block of BS that fits (PACK). -/
theorem exec_cases (i : Instr) (s : State) :
    (∃ e, exec i s = .next (finish (ContractError.code e) s)) ∨
    (i = .nop ∧ exec i s = .next (finish 0 s)) ∨
    (i = .checksum ∧ exec i s = .next (finish 0 { s with csum := checksumNibble (inputBytes s) })) ∨
    ((i = .encode ∨ i = .decode) ∧ s.len.toNat ≤ s.maxBytes ∧
      exec i s = .next (finish 0 (writeOutput (transform (inputBytes s)) s))) ∨
    (i = .unpack ∧ s.bslen.toNat ≤ 6 * s.maxBytes ∧
      exec i s = .next (finish 0 (writeOutput (unpackBits (fullGroups s)) s))) ∨
    (i = .pack ∧ s.len.toNat ≤ s.maxBytes ∧
      exec i s = .next (finish 0 (writeBits (packBits (inputBytes s)) s))) := by
  have cipher : (∃ e, complete (executeEncode s) s = .next (finish (ContractError.code e) s)) ∨
      s.len.toNat ≤ s.maxBytes ∧
        complete (executeEncode s) s = .next (finish 0 (writeOutput (transform (inputBytes s)) s)) := by
    cases h : checkCipher s.maxBytes s.len.toNat (inCell s 0) with
    | error e => exact .inl ⟨e, by simp [executeEncode, h]⟩
    | ok u => exact .inr ⟨(checkCipher_ok_iff.mp h).1, by simp [executeEncode, h]⟩
  have reserved : complete (.error .badOpcode) s = .next (finish (ContractError.code .badOpcode) s) := rfl
  cases i with
  | nop => exact .inr (.inl ⟨rfl, rfl⟩)
  | encode => exact cipher.imp id fun h => .inr (.inr (.inl ⟨.inl rfl, h⟩))
  | decode => exact cipher.imp id fun h => .inr (.inr (.inl ⟨.inr rfl, h⟩))
  | checksum =>
    rcases Nat.lt_or_ge s.maxBytes s.len.toNat with h | h
    · exact .inl ⟨.lenRange, by simp [exec, execChecksum, executeChecksum, h]⟩
    · exact .inr (.inr (.inl ⟨rfl, by simp [exec, execChecksum, executeChecksum, h]⟩))
  | pack =>
    rcases Nat.lt_or_ge s.maxBytes s.len.toNat with h | h
    · exact .inl ⟨.lenRange, by simp [exec, execPack, executePack, h]⟩
    · by_cases hv : (inputBytes s).all (fun b => b.toNat < 64) = true
      · exact .inr (.inr (.inr (.inr (.inr ⟨rfl, h, by simp only [exec, execPack, executePack, checkLen_le h, hv, if_true, complete_ok]⟩))))
      · exact .inl ⟨.valueRange, by simp only [exec, execPack, executePack, checkLen_le h, hv]; rfl⟩
  | unpack =>
    by_cases h : s.bslen.toNat ≤ 6 * s.maxBytes
    · by_cases hv : (fullGroups s).all isSymbol = true
      · exact .inr (.inr (.inr (.inr (.inl ⟨rfl, h, by simp only [exec, execUnpack, executeUnpack, h, hv, if_true, complete_ok]⟩))))
      · exact .inl ⟨.badSymbol, by simp only [exec, execUnpack, executeUnpack, h, hv, if_true]; rfl⟩
    · exact .inl ⟨.lenRange, by simp only [exec, execUnpack, executeUnpack, h, if_false, complete_error]⟩
  | reserved06 c => exact .inl ⟨.badOpcode, reserved⟩
  | reserved80 c => exact .inl ⟨.badOpcode, reserved⟩
  | reserved40 c => exact .inl ⟨.badOpcode, reserved⟩
  | reserved20 c => exact .inl ⟨.badOpcode, reserved⟩
  | reserved10 c => exact .inl ⟨.badOpcode, reserved⟩
  | reserved08 c => exact .inl ⟨.badOpcode, reserved⟩

/-- A command reads neither REJ, the count of host steps nor the host's program, and writes of these only the count: on a
state that differs in them it does the same. -/
theorem exec_hostSide {i : Instr} {s t : State} (h : exec i s = .next t) (rej : Bool) (latency : Nat)
    (program : List HostEvent) :
    exec i { s with rej := rej, latency := latency, program := program } =
      .next { t with rej := rej, program := program } := by
  let f : State → State := fun u => { u with rej := rej, latency := latency, program := program }
  have key : ∀ {r r' : Except ContractError State}, r' = r.map f → complete r s = .next t →
      complete r' (f s) = .next { t with rej := rej, program := program } := by
    rintro (e | u) _ rfl h <;> (cases h; rfl)
  have cipher : executeEncode (f s) = (executeEncode s).map f := by
    unfold executeEncode
    change (show Except ContractError State from match checkCipher s.maxBytes s.len.toNat (inCell s 0) with
      | .error e => .error e
      | .ok () => .ok (f (writeOutput (transform (inputBytes s)) s))) = _
    cases checkCipher s.maxBytes s.len.toNat (inCell s 0) <;> rfl
  cases i with
  | encode => exact key cipher h
  | decode => exact key cipher h
  | checksum =>
    refine key (r := executeChecksum s) ?_ h
    unfold executeChecksum
    change (show Except ContractError State from match checkLen s.maxBytes s.len.toNat with
      | .error e => .error e
      | .ok () => .ok (f { s with csum := checksumNibble (inputBytes s) })) = _
    cases checkLen s.maxBytes s.len.toNat <;> rfl
  | pack =>
    refine key (r := executePack s) ?_ h
    unfold executePack
    change (show Except ContractError State from match checkLen s.maxBytes s.len.toNat with
      | .error e => .error e
      | .ok () =>
        if (inputBytes s).all (fun b => b.toNat < 64) then .ok (f (writeBits (packBits (inputBytes s)) s))
        else .error .valueRange) = _
    cases checkLen s.maxBytes s.len.toNat with
    | error e => rfl
    | ok u => dsimp only; split <;> rfl
  | unpack =>
    refine key (r := executeUnpack s) ?_ h
    unfold executeUnpack
    change (show Except ContractError State from if s.bslen.toNat ≤ 6 * s.maxBytes then
      if (fullGroups s).all isSymbol then .ok (f (writeOutput (unpackBits (fullGroups s)) s))
      else .error .badSymbol
      else .error .lenRange) = _
    split
    · split <;> rfl
    · rfl
  | _ => cases h; rfl

/-- Everything a host write can do: be rejected, start a command, change one host-writable location, or nothing. -/
theorem hostWrite_cases (a : Addr) (v : Byte) (s : State) :
    (s.busy = true ∧ hostWrite a v s = { s with rej := true }) ∨
    s.busy = false ∧
      (hostWrite a v s = s ∨ (a = 0x000 ∧ hostWrite a v s = accept v s) ∨
       (a = statusAddr ∧ v.getLsbD 3 = true ∧ hostWrite a v s = { s with rej := false }) ∨
       (∃ n, hostWrite a v s = { s with len := n }) ∨ (∃ n, hostWrite a v s = { s with bslen := n }) ∨
       (∃ i, i < s.maxBytes ∧ hostWrite a v s = { s with mem := Memory.write s.mem (inBase + i) v }) ∨
       (∃ i, i < 6 * s.maxBytes ∧ hostWrite a v s = { s with mem := Memory.write s.mem (bsBase + i) v })) := by
  rcases Bool.eq_false_or_eq_true s.busy with hb | hb
  · exact .inl ⟨hb, if_pos hb⟩
  · refine .inr ⟨hb, ?_⟩
    have hw : hostWrite a v s = writeLoc v s (locate s.maxBytes a) := by simp [hostWrite, hb]
    rw [hw]
    cases hl : locate s.maxBytes a with
    | cmd => exact .inr (.inl ⟨BitVec.eq_of_toNat_eq (locateNat_cmd hl), rfl⟩)
    | status =>
      have ha : a = statusAddr := BitVec.eq_of_toNat_eq (locateNat_status hl)
      cases hv : v.getLsbD 3 with
      | true => exact .inr (.inr (.inl ⟨ha, rfl, by simp [writeLoc, hv]⟩))
      | false => exact .inl (by unfold writeLoc; rw [hv, Bool.not_false, Bool.and_true])
    | len => exact .inr (.inr (.inr (.inl ⟨v, rfl⟩)))
    | bslenL => exact .inr (.inr (.inr (.inr (.inl ⟨_, rfl⟩))))
    | bslenH => exact .inr (.inr (.inr (.inr (.inl ⟨_, rfl⟩))))
    | inCell i => exact .inr (.inr (.inr (.inr (.inr (.inl ⟨i, (locateNat_inCell hl).1, rfl⟩)))))
    | bsCell i => exact .inr (.inr (.inr (.inr (.inr (.inr ⟨i, (locateNat_bsCell hl).1, rfl⟩)))))
    | errcode => exact .inl rfl
    | csum => exact .inl rfl
    | outlen => exact .inl rfl
    | tblsize => exact .inl rfl
    | maxb => exact .inl rfl
    | outCell i => exact .inl rfl
    | romCell i => exact .inl rfl
    | reserved => exact .inl rfl

/-- Everything a host event can do when it is not refused. -/
theorem hostEvent_cases {e : HostEvent} {s t : State} (h : hostEvent e s = .next t) :
    (∃ a, e = .bus (.read a) 1 ∧ t = hostRead a s) ∨
    (∃ a v, e = .bus (.write a v) 1 ∧ t = hostWrite a v s) ∨
    (e = .wait ∧ (t = hostRead statusAddr s ∨ t = { hostRead statusAddr s with program := .wait :: s.program })) ∨
    (e = .reset ∧ t = hostReset s) := by
  cases e with
  | bus x size =>
    simp only [hostEvent] at h
    split at h
    · next hs =>
      subst hs
      cases x with
      | read a => exact .inl ⟨a, rfl, by simpa [hostTxn] using h.symm⟩
      | write a v => exact .inr (.inl ⟨a, v, rfl, by simpa [hostTxn] using h.symm⟩)
    · simp at h
  | wait =>
    simp only [hostEvent] at h
    split at h
    · exact .inr (.inr (.inl ⟨rfl, .inr (by simpa using h.symm)⟩))
    · exact .inr (.inr (.inl ⟨rfl, .inl (by simpa using h.symm)⟩))
  | reset => exact .inr (.inr (.inr ⟨rfl, by simpa [hostEvent] using h.symm⟩))

/-- Everything a step can do: complete the pending command, wait, or take the host's next event. -/
theorem step_cases {s t : State} (h : step s = .next t) :
    (completionDue s = true ∧ exec (decodeByte s.cmd) s = .next t) ∨
    (completionDue s = false ∧ s.program = [] ∧ t = s) ∨
    (completionDue s = false ∧ ∃ e rest, s.program = e :: rest ∧ hostEvent e (hostReady rest s) = .next t) := by
  unfold step at h
  cases hd : completionDue s with
  | true => exact .inl ⟨rfl, by simpa [hd] using h⟩
  | false =>
    simp only [hd, Bool.false_eq_true, if_false, hostTurn] at h
    cases hp : s.program with
    | nil => exact .inr (.inl ⟨rfl, rfl, by simpa [hp] using h.symm⟩)
    | cons e rest => exact .inr (.inr ⟨rfl, e, rest, rfl, by simpa [hp] using h⟩)

/-- A run of `k + 1` steps is its first step and a run of `k`. -/
theorem core_run_succ {s t : State} (h : step s = .next t) (k : Nat) :
    Host.Core.run Sys2Proof.core (k + 1) s = Host.Core.run Sys2Proof.core k t := by
  have h' : Sys2Proof.core.step s = .next t := h
  simp only [Host.Core.run, h']

theorem core_run_zero (s : State) : Host.Core.run Sys2Proof.core 0 s = .next s := rfl

theorem isCellAddr_iff {m a : Nat} : isCellAddr m a = true ↔
    (0x100 ≤ a ∧ a < 0x100 + m) ∨ (0x200 ≤ a ∧ a < 0x200 + m) ∨ (0x400 ≤ a ∧ a < 0x400 + 6 * m) := by
  simp [isCellAddr, or_assoc]

theorem countsLegal_iff {s : State} :
    countsLegal s = true ↔ s.outlen.toNat ≤ s.maxBytes ∧ (s.busy = true ∨ s.latency = 0) := by
  simp only [countsLegal, Bool.and_eq_true, decide_eq_true_eq, Bool.or_eq_true, beq_iff_eq]

theorem errorLegal_iff {s : State} :
    errorLegal s = true ↔ s.err = (s.errcode != 0) ∧ s.errcode.toNat < 8 := by
  simp only [errorLegal, Bool.and_eq_true, decide_eq_true_eq, beq_iff_eq]

end Sys2Proof.Machine
end

