-- ==== Sys2Proof/Tests/Slice0.lean ====
section
/-! SUPPORT. Tests. Expected results are the spec's own vectors (V<n> of 95_test_vectors.md) or worked by hand from the
rule named; a theorem named test_witness_<statement> shows states and operands that meet the hypotheses of the
obligation of that name, at the boundaries of its clauses. -/

namespace Sys2Proof.Machine.Tests

/-! ### Small states -/

/-- A machine with MAX_BYTES 48, the given IN, OUT and BS from index 0 (the rest 0), LEN the length of IN, BSLEN the
length of BS, nothing pending. -/
def machine (input output symbols : List Byte) : State where
  sizePred := 47
  mem := Memory.writeBlock (Memory.writeBlock (Memory.writeBlock [] inBase input) outBase output) bsBase symbols
  cmd := 0x00
  busy := false
  done := false
  err := false
  rej := false
  errcode := 0
  csum := 0
  len := BitVec.ofNat 8 input.length
  outlen := 0
  bslen := BitVec.ofNat 11 symbols.length
  latency := 0
  draws := 0
  program := []
  replies := []

/-- The same machine with a command byte pending and the given number of host steps still to come. -/
def pending (c : Byte) (latency : Nat) (s : State) : State := { s with cmd := c, busy := true, latency := latency }

/-- The machine with a program for the host. -/
def running (program : List HostEvent) (s : State) : State := { s with program := program }

/-- What is looked at in the next state; none where the outcome is no next state. -/
def look {α : Type} (f : State → α) : Host.Outcome State Fault Refusal → Option α
  | .next t => some (f t)
  | .fault _ => none
  | .refused _ => none

/-- STATUS and ERRCODE. -/
def report (t : State) : Byte × Nibble := (statusByte t, t.errcode)

/-- OUT[0 .. n-1], OUTLEN, STATUS and ERRCODE. -/
def output (n : Nat) (t : State) : List Byte × Byte × Byte × Nibble :=
  ((List.range n).map (outCell t), t.outlen, statusByte t, t.errcode)

/-- BS[0 .. n-1], BSLEN, STATUS and ERRCODE. -/
def symbols (n : Nat) (t : State) : List Byte × BitVec 11 × Byte × Nibble :=
  ((List.range n).map (bsCell t), t.bslen, statusByte t, t.errcode)

/-- "000101111111" of V2 and V60. -/
def string12 : List Byte := [0x30, 0x30, 0x30, 0x31, 0x30, 0x31, 0x31, 0x31, 0x31, 0x31, 0x31, 0x31]

/-! ### Decoding and well-formedness -/

/-- The words of R72 and R73, bit by bit. -/
theorem test_decode_named : decodeByte 0b00000000 = .nop ∧ decodeByte 0b00000001 = .encode ∧
    decodeByte 0b00000010 = .decode ∧ decodeByte 0b00000011 = .checksum ∧ decodeByte 0b00000100 = .pack ∧
    decodeByte 0b00000101 = .unpack := by decide

/-- The reserved words of R74, the first and the last of each row of the table. -/
theorem test_decode_reserved : decodeByte 0b00000110 = .reserved06 0x06 ∧ decodeByte 0b00000111 = .reserved06 0x07 ∧
    decodeByte 0b00001000 = .reserved08 0x08 ∧ decodeByte 0b00001111 = .reserved08 0x0F ∧
    decodeByte 0b00010000 = .reserved10 0x10 ∧ decodeByte 0b00011111 = .reserved10 0x1F ∧
    decodeByte 0b00100000 = .reserved20 0x20 ∧ decodeByte 0b00111111 = .reserved20 0x3F ∧
    decodeByte 0b01000000 = .reserved40 0x40 ∧ decodeByte 0b01111111 = .reserved40 0x7F ∧
    decodeByte 0b10000000 = .reserved80 0x80 ∧ decodeByte 0b11111111 = .reserved80 0xFF := by decide

/-- The host's view of the decoder. -/
theorem test_decode_table_word : decodeTableWord 8 0x02 = some .decode ∧
    decodeTableWord 8 0x81 = some (.reserved80 0x81) := by decide

/-- A write is bit 20 set, a read bit 20 clear, its data ignored (R70, R71): `W 0x100 0x08`, `R 0x200`. -/
theorem test_decode_txn : decodeTxn 0b100010000000000001000 = .write 0x100 0x08 ∧
    decodeTxn 0b000100000000000000000 = .read 0x200 ∧ decodeTxn 0b000100000000011111111 = .read 0x200 ∧
    encodeTxn (.write 0x100 0x08) = 0b100010000000000001000 := by decide

/-- One ill-formed term for each check of a command byte, which the check refuses. -/
theorem test_wellFormed_refuses_byte : (Instr.reserved06 0x05).wellFormed = false ∧
    (Instr.reserved80 0x7F).wellFormed = false ∧ (Instr.reserved40 0x80).wellFormed = false ∧
    (Instr.reserved20 0x40).wellFormed = false ∧ (Instr.reserved10 0x0F).wellFormed = false ∧
    (Instr.reserved08 0x07).wellFormed = false := by decide

/-- One ill-formed term for each check of an event or a program line. -/
theorem test_wellFormed_refuses_host : (HostEvent.bus (.read 0x000) 2).wellFormed = false ∧
    (HostOp.fill 0xFFF [0x00, 0x00]).wellFormed = false ∧ (HostOp.command (.reserved06 0x00)).wellFormed = false := by
  decide

/-- R25: 48 pairwise distinct entries from 1 to 63 with sum 1666. -/
theorem test_rom_facts : rom.length = 48 ∧ rom.Nodup ∧ (∀ b ∈ rom, 1 ≤ b.toNat ∧ b.toNat ≤ 63) ∧
    (rom.map BitVec.toNat).sum = 1666 := by decide

/-! ### Commands -/

/-- V70: NOP clears the error and leaves OUT, BS and CSUM. -/
theorem test_nop : look report (exec .nop { machine [] [1] [2] with err := true, errcode := 4, csum := 9 }) =
      some (0x02, 0) ∧
    look (fun t => (outCell t 0, bsCell t 0, t.csum)) (exec .nop { machine [] [1] [2] with csum := 9 }) =
      some (1, 2, 9) := by decide

/-- V1, V13, V21. -/
theorem test_encode_vectors : look (output 2) (exec .encode (machine [0x08, 0x00] [] [])) =
      some ([0x0D, 0x3F], 2, 0x02, 0) ∧
    look (output 4) (exec .encode (machine [0x58, 0, 0, 0] [] [])) = some ([0x5C, 0x17, 0x33, 0x18], 4, 0x02, 0) ∧
    look (output 3) (exec .encode (machine [0x5F, 0xFF] [0, 0, 0x77] [])) = some ([0x5B, 0xE8, 0x77], 2, 0x02, 0) := by
  decide

/-- V14, V15, V16, V17: the output keeps its bytes. -/
theorem test_encode_errors :
    look (output 1) (exec .encode (machine [0x58, 0, 0, 0, 0] [7] [])) = some ([7], 0, 0x06, 5) ∧
    look (output 1) (exec .encode (machine [0x60] [7] [])) = some ([7], 0, 0x06, 4) ∧
    look (output 1) (exec .encode (machine [] [7] [])) = some ([7], 0, 0x06, 3) ∧
    look (output 1) (exec .encode { machine [] [7] [] with len := 49 }) = some ([7], 0, 0x06, 2) := by decide

/-- V6, V20, V30. -/
theorem test_decode_vectors : look (output 2) (exec .decode (machine [0x0D, 0x3F] [] [])) =
      some ([0x08, 0x00], 2, 0x02, 0) ∧
    look (output 1) (exec .decode (machine [0x5B] [] [])) = some ([0x5F], 1, 0x02, 0) ∧
    look (output 4) (exec .decode (machine [0x0D, 0x2D, 0x1A, 0x3A] [] [])) =
      some ([0x08, 0x12, 0x00, 0x2A], 4, 0x02, 0) := by decide

/-- V18: LEN_RANGE masks KEY_RANGE. -/
theorem test_decode_len_range : look report (exec .decode { machine [0x60] [] [] with len := 60 }) = some (0x06, 2) := by
  decide

/-- V40, V42, V44, V46, V48. -/
theorem test_checksum_vectors : look State.csum (exec .checksum { machine [] [] [] with csum := 5 }) = some 0 ∧
    look State.csum (exec .checksum (machine [0xFF, 0x02] [] [])) = some 1 ∧
    look State.csum (exec .checksum (machine [0xFF] [] [])) = some 0xF ∧
    look State.csum (exec .checksum (machine [0x80, 0x80] [] [])) = some 0 ∧
    look State.csum (exec .checksum (machine [0x0D, 0x2D, 0x1A, 0x3A] [] [])) = some 0xE := by decide

/-- V49; V83, on a machine with MAX_BYTES 4. -/
theorem test_checksum_len_range :
    look (fun t => (t.csum, report t)) (exec .checksum { machine [] [] [] with len := 49, csum := 5 }) =
      some (5, 0x06, 2) ∧
    look report (exec .checksum { machine [] [] [] with sizePred := 3, len := 5 }) = some (0x06, 2) := by decide

/-- V2, V50, V52. -/
theorem test_pack_vectors : look (symbols 12) (exec .pack (machine [5, 63] [] [])) = some (string12, 12, 0x02, 0) ∧
    look (symbols 1) (exec .pack { machine [] [] [7] with bslen := 9 }) = some ([7], 0, 0x02, 0) ∧
    look (symbols 13) (exec .pack (machine [0x3F, 0x00] [] [])) =
      some ([0x31, 0x31, 0x31, 0x31, 0x31, 0x31, 0x30, 0x30, 0x30, 0x30, 0x30, 0x30, 0x00], 12, 0x02, 0) := by decide

/-- V55, V56, V57: BS and BSLEN keep their values. -/
theorem test_pack_errors : look (symbols 2) (exec .pack (machine [0x40] [] [7, 8])) = some ([7, 8], 2, 0x06, 6) ∧
    look (symbols 2) (exec .pack (machine [0x3F, 0x40] [] [7, 8])) = some ([7, 8], 2, 0x06, 6) ∧
    look (symbols 2) (exec .pack { machine [] [] [7, 8] with len := 49 }) = some ([7, 8], 2, 0x06, 2) := by decide

/-- V60, V61, V62, V63, V65. -/
theorem test_unpack_vectors : look (output 3) (exec .unpack (machine [] [0, 0, 0x77] string12)) =
      some ([0x05, 0x3F, 0x77], 2, 0x02, 0) ∧
    look (output 1) (exec .unpack (machine [] [] [0x30, 0x30, 0x30, 0x31, 0x30, 0x31, 0x31])) =
      some ([0x05], 1, 0x02, 0) ∧
    look (output 1) (exec .unpack { machine [] [7] [0x30, 0x30, 0x30, 0x31, 0x30] with outlen := 9 }) =
      some ([7], 0, 0x02, 0) ∧
    look (output 1) (exec .unpack (machine [] [] [0x30, 0x30, 0x30, 0x31, 0x30, 0x31, 0x78])) =
      some ([0x05], 1, 0x02, 0) ∧
    look (output 2) (exec .unpack
      (machine [] [] [0x31, 0x31, 0x31, 0x31, 0x31, 0x31, 0x30, 0x30, 0x30, 0x30, 0x30, 0x30])) =
      some ([0x3F, 0x00], 2, 0x02, 0) := ⟨by decide, by decide, by decide, by decide, by decide⟩

/-- V64, V67, V68: OUT and OUTLEN keep their values. -/
theorem test_unpack_errors :
    look (output 1) (exec .unpack (machine [] [7] [0x30, 0x30, 0x30, 0x31, 0x30, 0x78])) = some ([7], 0, 0x06, 7) ∧
    look (output 1) (exec .unpack { machine [] [7] [] with bslen := 289 }) = some ([7], 0, 0x06, 2) ∧
    look (output 1) (exec .unpack (machine [] [7] [0x30, 0x30, 0x00, 0x30, 0x30, 0x30])) = some ([7], 0, 0x06, 7) := by
  decide

/-- V71, V72, V73: the completion of a reserved byte; CMD keeps it. -/
theorem test_reserved : look (fun t => (report t, t.cmd)) (step (pending 0x06 0 (machine [] [] []))) =
      some ((0x06, 1), 0x06) ∧
    look (fun t => (report t, t.cmd)) (step (pending 0x81 0 (machine [] [] []))) = some ((0x06, 1), 0x81) ∧
    look (fun t => (report t, t.cmd)) (step (pending 0x09 0 (machine [] [] []))) = some ((0x06, 1), 0x09) := by decide

/-! ### Host accesses, reset and the host's program -/

/-- V5, V74, V82 (MAX_BYTES 4): reads of TBLSIZE, of the last ROM cell and the one past it, of a reserved address and of
a cell that does not exist. -/
theorem test_reads : busByte (machine [] [] []) 0x00E = 0x30 ∧ busByte (machine [] [] []) 0xC2F = 0x18 ∧
    busByte (machine [] [] []) 0xC30 = 0x00 ∧ busByte (machine [] [] []) 0x008 = 0x00 ∧
    busByte { machine [] [] [] with sizePred := 3 } 0x00F = 0x04 ∧
    busByte { machine [1, 2, 3, 4, 5] [] [] with sizePred := 3 } 0x103 = 0x04 ∧
    busByte { machine [1, 2, 3, 4, 5] [] [] with sizePred := 3 } 0x104 = 0x00 ∧
    hostWrite 0x104 0x12 { machine [] [] [] with sizePred := 3 } = { machine [] [] [] with sizePred := 3 } := by decide

/-- V75, V76, V77, V78: writes while idle. -/
theorem test_idle_writes : hostWrite 0xC00 0xFF (machine [] [] []) = machine [] [] [] ∧
    busByte (hostWrite 0x007 0xFF (machine [] [] [])) 0x007 = 0x07 ∧
    (hostWrite 0x001 0x08 { machine [] [] [] with rej := true }).rej = false ∧
    (hostWrite 0x001 0x07 { machine [] [] [] with rej := true }).rej = true := by decide

/-- V79, V80: writes while BUSY. -/
theorem test_busy_writes : hostWrite 0x004 0x05 (pending 0x00 1 (machine [] [] [])) =
      { pending 0x00 1 (machine [] [] []) with rej := true } ∧
    (hostWrite 0x000 0x01 (pending 0x00 1 (machine [] [] []))).cmd = 0x00 := by decide

/-- V81: STATUS, ERRCODE, LEN and CSUM read 0 after reset. -/
theorem test_reset_reads : busByte State.reset 0x001 = 0 ∧ busByte State.reset 0x002 = 0 ∧
    busByte State.reset 0x004 = 0 ∧ busByte State.reset 0x003 = 0 := ⟨rfl, rfl, rfl, rfl⟩

/-- P4: the two runs of a write that races the completion, read at the end of the race: STATUS, ERRCODE and LEN. -/
theorem test_race_two_runs :
    look (fun t => (report t, t.len)) (Host.Core.run core 2
      (running [.bus (.write 0x004 0x02) 1] (pending 0x01 0 (machine [0x60] [] [])))) = some ((0x06, 4), 0x02) ∧
    look (fun t => (report t, t.len)) (Host.Core.run core 2
      (running [.bus (.write 0x004 0x02) 1] (pending 0x01 1 (machine [0x60] [] [])))) = some ((0x0E, 4), 0x01) := by
  decide

/-- R78: the events of a short program. -/
theorem test_program_notation : expandProgram [.fill 0x100 [0x08, 0x00], .setBslen 0x118, .command .encode, .wait] =
    [.bus (.write 0x100 0x08) 1, .bus (.write 0x101 0x00) 1, .bus (.write 0x006 0x18) 1, .bus (.write 0x007 0x01) 1,
     .bus (.write 0x000 0x01) 1, .wait] := by decide

/-- An access two bytes wide is refused by name (U19). -/
theorem test_wide_access_refused :
    step (running [.bus (.read 0x100) 2] (machine [] [] [])) = .refused .wideAccess := rfl

/-! ### Witnesses: encoding and the table -/

theorem test_witness_EncodedInstructionDecodesBack : (Instr.encode).wellFormed = true ∧
    (Instr.reserved06 0x07).wellFormed = true ∧ (Instr.reserved80 0xFF).wellFormed = true ∧
    (Instr.reserved40 0x7F).wellFormed = true ∧ (Instr.reserved20 0x3F).wellFormed = true ∧
    (Instr.reserved10 0x1F).wellFormed = true ∧ (Instr.reserved08 0x0F).wellFormed = true := by decide

theorem test_witness_EveryByteLiesInItsRowOnly : (Instr.reserved06 0x00).row.covers 0x07 = true ∧
    (Instr.reserved80 0x00).row.covers 0x80 = true ∧ Instr.unpack.row.covers 0x05 = true := by decide

theorem test_witness_TransactionWordsDecode : (0x0FFFFF#21).getLsbD 20 = false ∧ (0x100000#21).getLsbD 20 = true := by
  decide

/-- A reserved command, a FILL that ends at the last address, an idle machine. -/
theorem test_witness_ProgramNotationMeansItsWrites : (Instr.reserved80 0x81).wellFormed = true ∧
    (0xFFE : Addr).toNat + [0x11#8, 0x22#8].length ≤ 4096 ∧ expandOp (.fill 0xFFE [0x11, 0x22]) =
      [.bus (.write 0xFFE 0x11) 1, .bus (.write 0xFFF 0x22) 1] ∧
    (machine [] [] []).busy = false := by decide

theorem test_witness_CipherTableContents : 47 < rom.length := by decide

theorem test_witness_ConstantsNeverChange : (∃ t, step (machine [] [] []) = .next t) ∧
    (machine [] [] []).busy = false := ⟨⟨_, rfl⟩, rfl⟩

/-! ### Witnesses: host accesses -/

/-- A host read, a wait and a reset as the next event, with a command pending and without one. -/
theorem test_witness_ResetAbandonsPendingCommand :
    completionDue (running [.reset] (pending 0x01 1 (machine [1] [] []))) = false ∧
    completionDue (running [.reset] (machine [1] [] [])) = false := by decide

theorem test_witness_IdleReadReturnsListedByte : (machine [1] [] []).busy = false := rfl

/-- The first and last address of each kind of location that R58 names, and the neighbours outside. -/
theorem test_witness_BusyReadReturnsDrawOrByte : (pending 0x01 1 (machine [1] [] [])).busy = true ∧
    ∀ a ∈ [0x003, 0x005, 0x006, 0x007, 0x200, 0x22F, 0x400, 0x51F],
      isResultAddr (pending 0x01 1 (machine [1] [] [])) a = true := by decide

theorem test_witness_busy_read_other : ∀ a ∈ [0x002, 0x004, 0x008, 0x1FF, 0x230, 0x3FF, 0x520],
    isResultAddr (pending 0x01 1 (machine [1] [] [])) a = false := by decide

theorem test_witness_IdleWriteHasListedEffect : (machine [1] [] []).busy = false := rfl

/-- The read-only locations of R54, at the boundaries of their windows. -/
theorem test_witness_ReadOnlyWriteHasNoEffect : (machine [1] [] []).busy = false ∧
    ∀ a ∈ [0x002, 0x003, 0x005, 0x00E, 0x00F, 0x200, 0x2FF, 0xC00, 0xC3F], isReadOnlyAddr a = true := by decide

/-- The reserved ranges of R50, and the windows' first index that does not exist (MAX_BYTES 48), at their boundaries. -/
theorem test_witness_ReservedAddressReadsZero : (machine [1] [] []).busy = false ∧
    (∀ a ∈ [0x008, 0x00D, 0x010, 0x0FF, 0x130, 0x1FF, 0x230, 0x2FF, 0x300, 0x3FF, 0x520, 0x9FF, 0xA00, 0xBFF, 0xC30,
      0xC3F, 0xC40, 0xFFF], isReservedAddr (machine [1] [] []) a = true) ∧
    ∀ a ∈ [0x007, 0x00E, 0x00F, 0x100, 0x12F, 0x200, 0x22F, 0x400, 0x51F, 0xC00, 0xC2F],
      isReservedAddr (machine [1] [] []) a = false := by decide

theorem test_witness_BusyWriteIsRejected :
    (pending 0x01 1 (machine [1] [] [])).busy = true ∧
    completionDue (running [.bus (.write 0x004 9) 1] (pending 0x01 1 (machine [1] [] []))) = false ∧
    (∀ rest, (running [.bus (.write 0x004 9) 1] (pending 0x01 1 (machine [1] [] []))).program ≠ .reset :: rest) ∧
    ∃ t, step (running [.bus (.write 0x004 9) 1] (pending 0x01 1 (machine [1] [] []))) = .next t :=
  ⟨rfl, rfl, fun _ h => (by simp [running] at h), _, rfl⟩

theorem test_witness_CmdWriteAcceptsCommand :
    (running [.bus (.write 0x000 0xFF) 1] (machine [] [] [])).busy = false ∧
    (running [.bus (.write 0x000 0xFF) 1] (machine [] [] [])).program = .bus (.write 0x000 0xFF) 1 :: [] := by decide

/-- The last cells of IN and BS that exist with MAX_BYTES 48, and BSLEN_H. -/
theorem test_witness_WriteThenReadReturnsValue : (machine [] [] []).busy = false ∧
    (0x12F : Addr).toNat < 0x100 + (machine [] [] []).maxBytes ∧
    (0x51F : Addr).toNat < 0x400 + 6 * (machine [] [] []).maxBytes := by decide

/-- REJ set by a write to a pending machine; REJ cleared by a write of STATUS and by a reset. -/
theorem test_witness_RejSetAndClearedOnlyAsStated :
    look State.rej (step (running [.bus (.write 0x004 9) 1] (pending 0x01 1 (machine [1] [] [])))) = some true ∧
    look State.rej (step (running [.bus (.write 0x001 0x08) 1] { machine [] [] [] with rej := true })) = some false ∧
    look State.rej (step (running [.reset] { machine [] [] [] with rej := true })) = some false := ⟨rfl, rfl, rfl⟩

/-! ### Witnesses: commands -/

/-- The first and the last byte with bits 7:3 not zero, and a byte of each reserved row. -/
theorem test_witness_ReservedReportsBadOpcode : (0x08 : Byte).extractLsb' 3 5 ≠ 0 ∧ (0xFF : Byte).extractLsb' 3 5 ≠ 0 ∧
    (Instr.reserved06 0x06).wellFormed = true ∧ (Instr.reserved80 0x80).wellFormed = true ∧
    (Instr.reserved40 0x40).wellFormed = true ∧ (Instr.reserved20 0x20).wellFormed = true ∧
    (Instr.reserved10 0x10).wellFormed = true ∧ (Instr.reserved08 0x08).wellFormed = true := by decide

/-- One state for each clause of ENCODE and DECODE, at the boundary of its condition: LEN 49, 0; key 12, 11 with LEN 5 and
LEN 4; key 0 with LEN 48. -/
theorem test_witness_EncodeChecksThenTransforms :
    ({ machine [] [] [] with len := 49 } : State).maxBytes < 49 ∧ (machine [] [] []).len.toNat = 0 ∧
    11 < inputKey (machine [0x60] [] []) ∧ (machine [0x60] [] []).len.toNat = 1 ∧ inputKey (machine [0x5F, 0, 0, 0, 0] [] []) = 11 ∧
    48 < 4 * inputKey (machine [0x5F, 0, 0, 0, 0] [] []) + 5 ∧
    (machine [0x5F, 0, 0, 0, 0] [] []).len.toNat ≤ (machine [] [] []).maxBytes := by decide

/-- The longest inputs that R112 passes at the last key and at the first. -/
theorem test_witness_CipherReady : CipherReady (machine [0x5F, 0, 0, 0] [] []) ∧
    CipherReady { machine [] [] [] with len := 48 } := by unfold CipherReady; decide

/-- DECODE has the conditions of ENCODE. -/
theorem test_witness_DecodeChecksThenTransforms : CipherReady (machine [0x0D, 0x3F] [] []) ∧
    ({ machine [] [] [] with len := 255 } : State).maxBytes < 255 ∧ 11 < inputKey (machine [0xFF] [] []) := by
  unfold CipherReady; decide

theorem test_witness_ChecksumSumsInput : (machine [] [] []).maxBytes < ({ machine [] [] [] with len := 49 } : State).len.toNat ∧
    ({ machine [] [] [] with len := 48 } : State).len.toNat ≤ (machine [] [] []).maxBytes := by decide

theorem test_witness_PackChecksThenWritesGroups :
    (machine [] [] []).maxBytes < ({ machine [] [] [] with len := 49 } : State).len.toNat ∧
    ((machine [0x3F, 0x40] [] []).len.toNat ≤ (machine [] [] []).maxBytes ∧
      ∃ j, j < (machine [0x3F, 0x40] [] []).len.toNat ∧ 64 ≤ (inCell (machine [0x3F, 0x40] [] []) j).toNat) ∧
    ((machine [0x3F, 0x00] [] []).len.toNat ≤ (machine [] [] []).maxBytes ∧
      ∀ j, j < (machine [0x3F, 0x00] [] []).len.toNat → (inCell (machine [0x3F, 0x00] [] []) j).toNat < 64) :=
  ⟨by decide, ⟨by decide, 1, by decide, by decide⟩, by decide, by decide⟩

/-- BSLEN 289; a full group with a bad symbol; a full group and a bad trailing symbol; BSLEN below a group. -/
theorem test_witness_UnpackChecksThenWritesBytes :
    6 * (machine [] [] []).maxBytes < ({ machine [] [] [] with bslen := 289 } : State).bslen.toNat ∧
    ¬ SymbolsBelow (machine [] [] [0x30, 0x30, 0x30, 0x31, 0x30, 0x32]) 6 ∧
    SymbolsBelow (machine [] [] [0x30, 0x30, 0x30, 0x31, 0x30, 0x31, 0x78]) 6 ∧
    SymbolsBelow (machine [] [] [0x78]) (6 * (1 / 6)) := by unfold SymbolsBelow; decide

/-! ### Witnesses: laws of the units -/

theorem test_witness_EncodeAndDecodeUndoEachOther : CipherReady (machine [0x08, 0x00] [] []) ∧
    ∃ t, exec .encode (machine [0x08, 0x00] [] []) = .next t ∧ InputIsOutputOf t (machine [0x0D, 0x3F] [] []) :=
  ⟨by unfold CipherReady; decide, _, rfl, by unfold InputIsOutputOf; decide⟩

theorem test_witness_CipherKeepsKey : CipherReady (machine [0x5F] [] []) ∧
    ∃ t, exec .decode (machine [0x5F] [] []) = .next t := ⟨by unfold CipherReady; decide, _, rfl⟩

/-- Key 7 and key 8 (V32 has key 11), and a machine that holds the output as its input. -/
theorem test_witness_CipherOutputRange : CipherReady (machine [0x3F, 0xFF] [] []) ∧
    inputKey (machine [0x3F, 0xFF] [] []) ≤ 7 ∧
    CipherReady (machine [0x40] [] []) ∧ 8 ≤ inputKey (machine [0x40] [] []) ∧
    ∃ t, exec .encode (machine [0x58, 0x00] [] []) = .next t ∧ InputIsOutputOf t (machine [0x5C, 0x17] [] []) :=
  ⟨by unfold CipherReady; decide, by decide, by unfold CipherReady; decide, by decide, _, rfl,
    by unfold InputIsOutputOf; decide⟩

/-- An input to pack; a string of two whole groups to unpack, and a machine that holds the output as its input. -/
theorem test_witness_PackAndUnpackRoundTrip :
    (machine [5, 63] [] []).len.toNat ≤ (machine [5, 63] [] []).maxBytes ∧
    (∀ j, j < (machine [5, 63] [] []).len.toNat → (inCell (machine [5, 63] [] []) j).toNat < 64) ∧
    (machine [] [] string12).bslen.toNat ≤ 6 * (machine [] [] string12).maxBytes ∧
    (machine [] [] string12).bslen.toNat % 6 = 0 ∧ SymbolsBelow (machine [] [] string12) 12 ∧
    ∃ t, exec .unpack (machine [] [] string12) = .next t ∧ InputIsOutputOf t (machine [5, 63] [] []) :=
  ⟨by decide, by decide, by decide, by decide, by unfold SymbolsBelow; decide, _, rfl, by unfold InputIsOutputOf; decide⟩

theorem test_witness_NormativeVectorsHold : (machine [0x08, 0x00] [] []).len = 2 ∧
    inCell (machine [0x08, 0x00] [] []) 0 = 0x08 ∧ inCell (machine [0x08, 0x00] [] []) 1 = 0x00 ∧
    (machine [5, 63] [] []).len = 2 ∧ inCell (machine [5, 63] [] []) 0 = 5 ∧ inCell (machine [5, 63] [] []) 1 = 63 := by
  decide

theorem test_witness_FailedCommandWritesNothing : ∃ t, exec .encode (machine [] [] []) = .next t ∧ t.errcode ≠ 0 :=
  ⟨_, rfl, by decide⟩

theorem test_witness_CommandReportsOnlyItsCodes : ∃ t, exec (.reserved80 0x81) (machine [] [] []) = .next t := ⟨_, rfl⟩

theorem test_witness_EveryCommandCompletesKeepingInputs : Instr.unpack ≠ .pack := by decide

/-- A machine with MAX_BYTES 4, and one with the same inputs and a different OUT, OUTLEN, CSUM and status. -/
def small : State := { machine [8, 0] [] [0x30] with sizePred := 3 }

/-- The other machine. -/
def smallOther : State := { machine [8, 0] [9] [0x30] with sizePred := 3, csum := 5, outlen := 3, rej := true }

theorem test_witness_CommandDependsOnInputsOnly : small.sizePred = smallOther.sizePred ∧ small.len = smallOther.len ∧
    small.bslen = smallOther.bslen ∧ (∀ j, j < small.maxBytes → inCell small j = inCell smallOther j) ∧
    (∀ j, j < 6 * small.maxBytes → bsCell small j = bsCell smallOther j) ∧
    (∃ t, exec .encode small = .next t) ∧ ∃ t, exec .encode smallOther = .next t :=
  ⟨by decide, by decide, by decide, by decide, by decide, ⟨_, rfl⟩, _, rfl⟩

/-! ### Witnesses: steps -/

/-- A completion due with no host step left, and with no host event left. -/
theorem test_witness_StepRunsDecodedCommand : completionDue (pending 0x05 0 (machine [] [] [])) = true ∧
    completionDue (pending 0x05 7 (machine [] [] [])) = true := by decide

/-- A host read and a reset next while idle and while a command is pending; an idle machine whose host has nothing to do. -/
theorem test_witness_StepTakesNextHostEvent :
    completionDue (running [.bus (.read 0x200) 1] (machine [] [] [])) = false ∧
    completionDue (running [.bus (.read 0x200) 1] (pending 0x01 1 (machine [] [] []))) = false ∧
    completionDue (running [.reset] (pending 0x01 1 (machine [] [] []))) = false ∧
    (machine [] [] []).busy = false ∧ (machine [] [] []).program = [] := by decide

theorem test_witness_WaitPollsUntilIdle : completionDue (running [.wait] (pending 0x01 1 (machine [] [] []))) = false ∧
    completionDue (running [.wait] (machine [] [] [])) = false := by decide

theorem test_witness_PendingCommandCompletes : (running [.bus (.read 0x200) 1, .wait, .reset]
      (pending 0x01 2 (machine [] [] []))).busy = true ∧
    ∀ e ∈ (running [.bus (.read 0x200) 1, .wait, .reset] (pending 0x01 2 (machine [] [] []))).program.take 2,
      harmless e = true := by decide

/-- A machine with a command pending and a write next, for each order of the race: a write of LEN, and of the last
address. -/
theorem test_witness_RacingWriteLandsOrIsLost :
    (running [.bus (.write 0x004 2) 1] (pending 0x01 0 (machine [0x60] [] []))).busy = true ∧
    (running [.bus (.write 0x004 2) 1] (pending 0x01 0 (machine [0x60] [] []))).program = .bus (.write 0x004 2) 1 :: [] ∧
    (running [.bus (.write 0x004 2) 1] (pending 0x01 0 (machine [0x60] [] []))).latency = 0 ∧
    (running [.bus (.write 0xFFF 2) 1] (pending 0x01 1 (machine [0x60] [] []))).busy = true ∧
    (running [.bus (.write 0xFFF 2) 1] (pending 0x01 1 (machine [0x60] [] []))).program = .bus (.write 0xFFF 2) 1 :: [] ∧
    (running [.bus (.write 0xFFF 2) 1] (pending 0x01 1 (machine [0x60] [] []))).latency = 1 := by decide

/-- BUSY set by a write of CMD, cleared by a completion and by a reset. -/
theorem test_witness_BusyChangesOnlyAsStated :
    look State.busy (step (running [.bus (.write 0x000 1) 1] (machine [] [] []))) = some true ∧
    look State.busy (step (pending 0x01 0 (machine [] [] []))) = some false ∧
    look State.busy (step (running [.reset] (pending 0x01 1 (machine [] [] [])))) = some false := ⟨rfl, rfl, rfl⟩

theorem test_witness_CsumChangesOnlyByChecksum :
    look State.csum (step (pending 0x03 0 (machine [3] [] []))) = some 3 ∧
    look State.csum (step (running [.reset] { machine [] [] [] with csum := 3 })) = some 0 := ⟨rfl, rfl⟩

theorem test_witness_OutputChangesOnlyByItsCommands :
    look State.outlen (step (pending 0x01 0 (machine [8, 0] [] []))) = some 2 ∧
    look (fun t => outCell t 0) (step (pending 0x05 0 (machine [] [] string12))) = some 5 ∧
    look State.outlen (step (running [.reset] { machine [] [] [] with outlen := 3 })) = some 0 := ⟨rfl, rfl, rfl⟩

theorem test_witness_ErrorKeptUntilNextCommand :
    look report (step (running [.bus (.write 0x000 0) 1] { machine [] [] [] with err := true, errcode := 4 })) =
      some (0x01, 0) := rfl

/-! ### Witnesses: invariants -/

/-- A machine with data in all three buffers, idle after an error, and its next step. -/
theorem test_witness_StepKeepsInvariant : StateInv { machine [1] [2] [3] with done := true, err := true, errcode := 7 } ∧
    ∃ t, step { machine [1] [2] [3] with done := true, err := true, errcode := 7 } = .next t :=
  ⟨⟨by decide, by decide, rfl, rfl, rfl⟩, _, rfl⟩

theorem test_witness_StepKeepsStatusLegal : statusLegal (machine [] [] []) = true ∧
    statusLegal (pending 0 0 (machine [] [] [])) = true ∧ statusLegal { machine [] [] [] with done := true } = true ∧
    statusLegal { machine [] [] [] with done := true, err := true } = true := by decide

theorem test_witness_StepKeepsMemoryCanonical : Memory.wf (machine [1] [2] [3]).mem ∧ cellsExist (machine [1] [2] [3]) ∧
    isCellAddr 48 0x130 = false ∧ isCellAddr 48 0x12F = true := by decide

theorem test_witness_CanonicalMemoryIsUnique : Memory.wf (machine [1] [2] [3]).mem ∧
    (machine [1] [2] [3]).mem = [(0x100, 1), (0x200, 2), (0x400, 3)] := by decide

end Sys2Proof.Machine.Tests
end

/-! ### What a successful ENCODE and PACK leave, and the normative vectors (R19) -/

namespace Sys2Proof.Machine

/-- Reading back a block just written gives the block (R59). -/
@[simp] theorem Memory.readBlock_writeBlock_same (m : Memory) (a : Nat) (vs : List Byte) :
    Memory.readBlock (Memory.writeBlock m a vs) a vs.length = vs := by
  refine List.ext_getElem (Memory.length_readBlock ..) fun i _ hi => ?_
  rw [Memory.getElem_readBlock, Memory.read_writeBlock_inside hi, List.getD_eq_getElem _ _ hi]

theorem inputBytes_of_len_two {s : State} (h : s.len = 2) : inputBytes s = [inCell s 0, inCell s 1] := by
  rw [inputBytes, h]
  rfl

/-- A completion with code 0 leaves the status of a success (R93). -/
theorem doneOk_finish_zero (s : State) : DoneOk (finish 0 s) := ⟨rfl, rfl, rfl, rfl⟩

/-- ENCODE of an input that passes the checks writes its transform (R113). -/
theorem exec_encode_of_checks {s : State} (h : checkCipher s.maxBytes s.len.toNat (inCell s 0) = .ok ()) :
    exec .encode s = .next (finish 0 (writeOutput (transform (inputBytes s)) s)) := by
  simp only [exec, execEncode, executeEncode, h, complete_ok]

/-- PACK of an input that fits and has only values below 64 writes its binary string (R141). -/
theorem exec_pack_of_values {s : State} (hlen : s.len.toNat ≤ s.maxBytes) (hval : ∀ b ∈ inputBytes s, b.toNat < 64) :
    exec .pack s = .next (finish 0 (writeBits (packBits (inputBytes s)) s)) := by
  have hall : (inputBytes s).all (fun b => b.toNat < 64) = true := by simpa using hval
  simp only [exec, execPack, executePack, checkLen_le hlen, hall, if_true, complete_ok]

/-- The worked example of §8.5 (V1). -/
theorem exec_encode_8_0 {s : State} (hlen : s.len = 2) (hmax : 2 ≤ s.maxBytes) (h0 : inCell s 0 = 0x08)
    (h1 : inCell s 1 = 0x00) : exec .encode s = .next (finish 0 (writeOutput [13, 63] s)) := by
  have hchecks : checkCipher s.maxBytes s.len.toNat (inCell s 0) = .ok () := by
    rw [checkCipher_ok_iff, hlen, h0]
    exact ⟨hmax, by decide⟩
  have hbytes : transform (inputBytes s) = [13, 63] := by
    rw [inputBytes_of_len_two hlen, h0, h1]
    decide
  rw [exec_encode_of_checks hchecks, hbytes]

/-- The packing example of §8.6 (V2). -/
theorem exec_pack_5_63 {s : State} (hlen : s.len = 2) (hmax : 2 ≤ s.maxBytes) (h0 : inCell s 0 = 5)
    (h1 : inCell s 1 = 63) : exec .pack s = .next (finish 0 (writeBits (packBits [5, 63]) s)) := by
  have hbytes : inputBytes s = [5, 63] := by rw [inputBytes_of_len_two hlen, h0, h1]
  have hvalues : ∀ b ∈ inputBytes s, b.toNat < 64 := by
    rw [hbytes]
    decide
  rw [exec_pack_of_values (by rw [hlen]; exact hmax) hvalues, hbytes]

/-- Settles O32: each vector is one successful execution, and its result is read back from the block it wrote. -/
theorem normativeVectorsHold : Obligations.NormativeVectorsHold := by
  refine ⟨fun s hlen hmax h0 h1 => ?_, fun s hlen hmax h0 h1 => ?_⟩
  · have hout : ∀ i, i < 2 → outCell (finish 0 (writeOutput [13, 63] s)) i = [13, 63].getD i 0 := fun i hi =>
      Memory.read_writeBlock_inside hi
    exact ⟨_, exec_encode_8_0 hlen hmax h0 h1, doneOk_finish_zero _, hout 0 (by decide), hout 1 (by decide), rfl⟩
  · exact ⟨_, exec_pack_5_63 hlen hmax h0 h1, doneOk_finish_zero _, rfl,
      Memory.readBlock_writeBlock_same s.mem bsBase (packBits [5, 63])⟩

end Sys2Proof.Machine

/-! ### A command depends on its inputs only (R17, R97): two runs, compared -/

namespace Sys2Proof.Machine

/-- Two machines of one size that hold the same inputs of every command: LEN, BSLEN, IN and BS (R75). -/
structure SameInputs (s s' : State) : Prop where
  size : s.sizePred = s'.sizePred
  len : s.len = s'.len
  bslen : s.bslen = s'.bslen
  inCells : ∀ j, j < s.maxBytes → inCell s j = inCell s' j
  bsCells : ∀ j, j < 6 * s.maxBytes → bsCell s j = bsCell s' j

/-- The same completion on two machines: the same code and the same written values, whatever each held before. -/
inductive SameCompletion (s s' : State) :
    Host.Outcome State Fault Refusal → Host.Outcome State Fault Refusal → Prop where
  | status (code : Nibble) : SameCompletion s s' (.next (finish code s)) (.next (finish code s'))
  | csum (n : Nibble) :
    SameCompletion s s' (.next (finish 0 { s with csum := n })) (.next (finish 0 { s' with csum := n }))
  | output (bytes : List Byte) :
    SameCompletion s s' (.next (finish 0 (writeOutput bytes s))) (.next (finish 0 (writeOutput bytes s')))
  | bits (symbols : List Byte) :
    SameCompletion s s' (.next (finish 0 (writeBits symbols s))) (.next (finish 0 (writeBits symbols s')))

section
variable {s s' : State}

theorem SameInputs.maxBytes_eq (h : SameInputs s s') : s'.maxBytes = s.maxBytes := by
  rw [State.maxBytes, State.maxBytes, h.size]

theorem SameInputs.checkLen_eq (h : SameInputs s s') :
    checkLen s'.maxBytes s'.len.toNat = checkLen s.maxBytes s.len.toNat := by
  rw [h.maxBytes_eq, h.len]

theorem SameInputs.inputBytes_eq (h : SameInputs s s') (hlen : s.len.toNat ≤ s.maxBytes) :
    inputBytes s' = inputBytes s := by
  rw [inputBytes, inputBytes, ← h.len]
  exact Memory.readBlock_congr fun i hi => (h.inCells i (hi.trans_le hlen)).symm

theorem SameInputs.fullGroups_eq (h : SameInputs s s') (hlen : s.bslen.toNat ≤ 6 * s.maxBytes) :
    fullGroups s' = fullGroups s := by
  rw [fullGroups, fullGroups, ← h.bslen]
  exact Memory.readBlock_congr fun i hi => (h.bsCells i (by omega)).symm

theorem SameInputs.sameCompletion_encode (h : SameInputs s s') :
    SameCompletion s s' (complete (executeEncode s) s) (complete (executeEncode s') s') := by
  have hfirst : inCell s' 0 = inCell s 0 := (h.inCells 0 s.maxBytes_bounds.1).symm
  unfold executeEncode
  rw [h.maxBytes_eq, ← h.len, hfirst]
  cases hc : checkCipher s.maxBytes s.len.toNat (inCell s 0) with
  | error e => exact .status e.code
  | ok _ =>
    rw [h.inputBytes_eq (checkCipher_ok_iff.mp hc).1]
    exact .output _

theorem SameInputs.sameCompletion_checksum (h : SameInputs s s') :
    SameCompletion s s' (complete (executeChecksum s) s) (complete (executeChecksum s') s') := by
  unfold executeChecksum
  rw [h.checkLen_eq]
  rcases Nat.lt_or_ge s.maxBytes s.len.toNat with hlen | hlen
  · rw [checkLen_gt hlen]
    exact .status 2
  · rw [checkLen_le hlen, h.inputBytes_eq hlen]
    exact .csum _

theorem SameInputs.sameCompletion_pack (h : SameInputs s s') :
    SameCompletion s s' (complete (executePack s) s) (complete (executePack s') s') := by
  unfold executePack
  rw [h.checkLen_eq]
  rcases Nat.lt_or_ge s.maxBytes s.len.toNat with hlen | hlen
  · rw [checkLen_gt hlen]
    exact .status 2
  · rw [checkLen_le hlen, h.inputBytes_eq hlen]
    dsimp only
    split
    · exact .bits _
    · exact .status 6

theorem SameInputs.sameCompletion_unpack (h : SameInputs s s') :
    SameCompletion s s' (complete (executeUnpack s) s) (complete (executeUnpack s') s') := by
  unfold executeUnpack
  rw [h.maxBytes_eq, ← h.bslen]
  split
  · next hlen =>
    rw [h.fullGroups_eq hlen]
    split
    · exact .output _
    · exact .status 7
  · exact .status 2

/-- On machines with the same inputs every command completes in the same way. -/
theorem SameInputs.sameCompletion_exec (h : SameInputs s s') (i : Instr) :
    SameCompletion s s' (exec i s) (exec i s') := by
  cases i with
  | nop => exact .status 0
  | encode | decode => exact h.sameCompletion_encode
  | checksum => exact h.sameCompletion_checksum
  | pack => exact h.sameCompletion_pack
  | unpack => exact h.sameCompletion_unpack
  | reserved06 | reserved80 | reserved40 | reserved20 | reserved10 | reserved08 => exact .status 1

end

/-- The same block written to two memories: an address reads the same in both, or as before in both. -/
theorem Memory.read_writeBlock_same_or_kept (m m' : Memory) (a b : Nat) (vs : List Byte) :
    Memory.read (Memory.writeBlock m a vs) b = Memory.read (Memory.writeBlock m' a vs) b ∨
      (Memory.read (Memory.writeBlock m a vs) b = Memory.read m b ∧
        Memory.read (Memory.writeBlock m' a vs) b = Memory.read m' b) := by
  by_cases hb : a ≤ b ∧ b < a + vs.length
  · exact .inl (by rw [Memory.read_writeBlock, Memory.read_writeBlock, if_pos hb, if_pos hb])
  · exact .inr ⟨Memory.read_writeBlock_outside hb, Memory.read_writeBlock_outside hb⟩

/-- The same block written to two memories keeps every address on which they agreed. -/
theorem Memory.read_writeBlock_congr {m m' : Memory} {b : Nat} (h : Memory.read m b = Memory.read m' b) (a : Nat)
    (vs : List Byte) :
    Memory.read (Memory.writeBlock m a vs) b = Memory.read (Memory.writeBlock m' a vs) b := by
  rw [Memory.read_writeBlock, Memory.read_writeBlock, h]

/-- Settles O36: the two runs complete in the same way, and each kind of completion writes the same values on both or
leaves an output alone on both. -/
theorem commandDependsOnInputsOnly : Obligations.CommandDependsOnInputsOnly := by
  intro i s s' t t' hsize hlen hbslen hin hbs ht ht'
  have hsame : SameCompletion s s' (.next t) (.next t') :=
    ht ▸ ht' ▸ (SameInputs.mk hsize hlen hbslen hin hbs).sameCompletion_exec i
  cases hsame with
  | status code =>
    exact ⟨rfl, .inr ⟨rfl, rfl⟩, .inr ⟨rfl, rfl⟩, hbslen, hbs, fun _ _ => .inr ⟨rfl, rfl⟩⟩
  | csum n =>
    exact ⟨rfl, .inl rfl, .inr ⟨rfl, rfl⟩, hbslen, hbs, fun _ _ => .inr ⟨rfl, rfl⟩⟩
  | output bytes =>
    exact ⟨rfl, .inr ⟨rfl, rfl⟩, .inl rfl, hbslen, fun j hj => Memory.read_writeBlock_congr (hbs j hj) _ _,
      fun _ _ => Memory.read_writeBlock_same_or_kept ..⟩
  | bits symbols =>
    exact ⟨rfl, .inr ⟨rfl, rfl⟩, .inr ⟨rfl, rfl⟩, rfl, fun j hj => Memory.read_writeBlock_congr (hbs j hj) _ _,
      fun _ _ => Memory.read_writeBlock_same_or_kept ..⟩

end Sys2Proof.Machine


/-! ### Every kind of step, once: the relation that the invariants and frames of a step are proved over -/

namespace Sys2Proof.Machine

/-- What a step does to the state, with the guard of each kind. The completion of a command (R93) changes the status
alone, or with it CSUM, OUT or BS; a host step accepts a command, writes one input cell, resets the machine, or changes
only host-writable registers, REJ and the model's own fields. -/
inductive StepEffect (s : State) : State → Prop where
  | status (code : Nibble) (due : completionDue s = true) (defined : code.toNat < 8) :
    StepEffect s (finish code s)
  | csum (n : Nibble) (due : completionDue s = true) (command : decodeByte s.cmd = .checksum) :
    StepEffect s (finish 0 { s with csum := n })
  | output (bytes : List Byte) (due : completionDue s = true)
    (command : decodeByte s.cmd = .encode ∨ decodeByte s.cmd = .decode ∨ decodeByte s.cmd = .unpack)
    (fits : bytes.length ≤ s.maxBytes) : StepEffect s (finish 0 (writeOutput bytes s))
  | bits (symbols : List Byte) (due : completionDue s = true) (command : decodeByte s.cmd = .pack)
    (fits : symbols.length ≤ 6 * s.maxBytes) : StepEffect s (finish 0 (writeBits symbols s))
  | accepted (v : Byte) (rest : List HostEvent) (idle : s.busy = false)
    (next : s.program = .bus (.write 0x000 v) 1 :: rest) : StepEffect s (accept v (hostReady rest s))
  | inputCell (a : Nat) (v : Byte) (rest : List HostEvent) (idle : s.busy = false)
    (cell : (inBase ≤ a ∧ a < inBase + s.maxBytes) ∨ (bsBase ≤ a ∧ a < bsBase + 6 * s.maxBytes)) :
    StepEffect s { hostReady rest s with mem := Memory.write s.mem a v }
  | reset (rest : List HostEvent) (notDue : completionDue s = false) (next : s.program = .reset :: rest) :
    StepEffect s (hostReset (hostReady rest s))
  | registers (rej : Bool) (len : Byte) (bslen : BitVec 11) (latency draws : Nat) (program : List HostEvent)
    (replies : List Byte) (idle : s.busy = false → latency = s.latency) :
    StepEffect s { s with rej := rej, len := len, bslen := bslen, latency := latency, draws := draws,
                          program := program, replies := replies }

/-- Only a pending command uses up host steps (R190, log 4). -/
theorem hostReady_latency_of_idle (rest : List HostEvent) {s : State} (h : s.busy = false) :
    (hostReady rest s).latency = s.latency := by
  simp [hostReady, h]

/-- R160 defines the codes below 8. -/
theorem ContractError.code_toNat_lt (e : ContractError) : e.code.toNat < 8 := by
  cases e <;> decide

/-- OUT has room for an unpacked string that fits in BS (R147). -/
theorem length_unpackBits_fullGroups_le {s : State} (h : s.bslen.toNat ≤ 6 * s.maxBytes) :
    (unpackBits (fullGroups s)).length ≤ s.maxBytes := by
  rw [length_unpackBits, length_fullGroups]
  omega

theorem stepEffect_of_exec {s t : State} (due : completionDue s = true) (h : exec (decodeByte s.cmd) s = .next t) :
    StepEffect s t := by
  rcases exec_cases (decodeByte s.cmd) s with
    ⟨e, hx⟩ | ⟨-, hx⟩ | ⟨hi, hx⟩ | ⟨hi, hlen, hx⟩ | ⟨hi, hlen, hx⟩ | ⟨hi, hlen, hx⟩ <;> cases hx.symm.trans h
  · exact .status _ due e.code_toNat_lt
  · exact .status _ due (by decide)
  · exact .csum _ due hi
  · exact .output _ due (hi.imp id .inl) (by simpa using hlen)
  · exact .output _ due (.inr (.inr hi)) (length_unpackBits_fullGroups_le hlen)
  · exact .bits _ due hi (by simpa using hlen)

theorem stepEffect_of_hostWrite {s : State} {a : Addr} {v : Byte} {rest : List HostEvent}
    (next : s.program = .bus (.write a v) 1 :: rest) : StepEffect s (hostWrite a v (hostReady rest s)) := by
  have hlat := @hostReady_latency_of_idle rest s
  rcases hostWrite_cases a v (hostReady rest s) with
    ⟨-, h⟩ | ⟨idle, h | ⟨rfl, h⟩ | ⟨-, -, h⟩ | ⟨n, h⟩ | ⟨n, h⟩ | ⟨i, hi, h⟩ | ⟨i, hi, h⟩⟩ <;> rw [h]
  · exact .registers _ _ _ _ _ _ _ hlat
  · exact .registers _ _ _ _ _ _ _ hlat
  · exact .accepted v rest idle next
  · exact .registers _ _ _ _ _ _ _ hlat
  · exact .registers _ _ _ _ _ _ _ hlat
  · exact .registers _ _ _ _ _ _ _ hlat
  · exact .inputCell _ v rest idle (.inl ⟨Nat.le_add_right .., Nat.add_lt_add_left hi _⟩)
  · exact .inputCell _ v rest idle (.inr ⟨Nat.le_add_right .., Nat.add_lt_add_left hi _⟩)

theorem stepEffect_of_hostEvent {s t : State} {e : HostEvent} {rest : List HostEvent}
    (notDue : completionDue s = false) (next : s.program = e :: rest)
    (h : hostEvent e (hostReady rest s) = .next t) : StepEffect s t := by
  have hlat := @hostReady_latency_of_idle rest s
  rcases hostEvent_cases h with ⟨a, rfl, rfl⟩ | ⟨a, v, rfl, rfl⟩ | ⟨rfl, rfl | rfl⟩ | ⟨rfl, rfl⟩
  · exact .registers _ _ _ _ _ _ _ hlat
  · exact stepEffect_of_hostWrite next
  · exact .registers _ _ _ _ _ _ _ hlat
  · exact .registers _ _ _ _ _ _ _ hlat
  · exact .reset rest notDue next

/-- Every step has one of these effects. -/
theorem stepEffect_of_step {s t : State} (h : step s = .next t) : StepEffect s t := by
  rcases step_cases h with ⟨due, hx⟩ | ⟨-, -, rfl⟩ | ⟨notDue, e, rest, next, he⟩
  · exact stepEffect_of_exec due hx
  · exact .registers _ _ _ _ _ _ _ fun _ => rfl
  · exact stepEffect_of_hostEvent notDue next he

end Sys2Proof.Machine

/-! ### Canonical memory: its entries are its readings (R40), and the memory after reset (R38, R39) -/

namespace Sys2Proof.Machine

/-- An address that reads other than an unlisted one is listed with that byte. -/
theorem Memory.mem_of_read_ne {m : Memory} {a : Nat} (h : Memory.read m a ≠ unlisted) :
    (a, Memory.read m a) ∈ m := by
  induction m with
  | nil => exact absurd rfl h
  | cons c m ih =>
    obtain ⟨b, w⟩ := c
    by_cases hb : b = a
    · simp [Memory.read, hb]
    · simp only [Memory.read, if_neg hb] at h ⊢
      exact List.mem_cons_of_mem _ (ih h)

/-- In a memory of rising addresses an entry is what its address reads. -/
theorem Memory.read_of_mem {m : Memory} (hm : List.Pairwise (fun c d : Host.Cell => c.1 < d.1) m) {c : Host.Cell}
    (hc : c ∈ m) : Memory.read m c.1 = c.2 := by
  induction hm with
  | nil => cases hc
  | @cons d m hd _ ih =>
    rcases List.mem_cons.mp hc with rfl | hc
    · exact if_pos rfl
    · exact (if_neg (hd c hc).ne).trans (ih hc)

/-- The entries of a canonical memory are its readings other than that of an unlisted address. -/
theorem Memory.mem_iff_read {m : Memory} (hm : Memory.wf m) (c : Host.Cell) :
    c ∈ m ↔ c.2 ≠ unlisted ∧ Memory.read m c.1 = c.2 := by
  refine ⟨fun hc => ⟨hm.2 c hc, Memory.read_of_mem hm.1 hc⟩, fun ⟨hne, hread⟩ => ?_⟩
  have hmem : (c.1, Memory.read m c.1) ∈ m := Memory.mem_of_read_ne (hread ▸ hne)
  rwa [hread] at hmem

/-- Settles O51: two canonical memories with the same readings have the same entries, in the same rising order. -/
theorem canonicalMemoryIsUnique : Obligations.CanonicalMemoryIsUnique := by
  intro m m' hm hm' hread
  have irrefl : Std.Irrefl fun c d : Host.Cell => c.1 < d.1 := ⟨fun c => Nat.lt_irrefl c.1⟩
  have antisymm : Std.Antisymm fun c d : Host.Cell => c.1 < d.1 := ⟨fun _ _ h h' => absurd h' h.asymm⟩
  refine hm.1.eq_of_mem_iff hm'.1 fun c => ?_
  rw [Memory.mem_iff_read hm, Memory.mem_iff_read hm', hread]

/-- A list of addresses, each with its byte unless that is the unlisted one, reads as the byte at these addresses. -/
theorem Memory.read_filter_map (f : Nat → Byte) (addrs : List Nat) (a : Nat) :
    Memory.read ((addrs.map fun b => (b, f b)).filter fun c => c.2 != unlisted) a =
      if a ∈ addrs then f a else unlisted := by
  induction addrs with
  | nil => rfl
  | cons b addrs ih =>
    by_cases hv : f b = unlisted
    · rw [List.map_cons, List.filter_cons_of_neg (by simp [hv]), ih]
      by_cases hb : a = b <;> simp [hb, hv]
    · rw [List.map_cons, List.filter_cons_of_pos (by simp [hv]), Memory.read, ih]
      by_cases hb : b = a
      · simp [hb]
      · simp [hb, Ne.symm hb]

theorem mem_cellAddrs_iff_isCellAddr {n a : Nat} : a ∈ cellAddrs n ↔ isCellAddr n a = true :=
  mem_cellAddrs.trans isCellAddr_iff.symm

/-- After a reset the existing cells read the bytes of its draw (R39), every other address 0x00. -/
theorem Memory.read_drawn (n k a : Nat) :
    Memory.read (Memory.drawn n k) a = if isCellAddr n a then Config.resetByte k a else 0 := by
  simp only [Memory.drawn, Memory.read_filter_map, mem_cellAddrs_iff_isCellAddr]
  rfl

/-- Settles O9: both memories are the drawn one. -/
theorem resetDrawsEveryCell : Obligations.ResetDrawsEveryCell :=
  ⟨fun s a => Memory.read_drawn s.maxBytes s.draws a, fun a => Memory.read_drawn State.reset.maxBytes 0 a⟩

end Sys2Proof.Machine

/-! ### The invariants of a step (R29, R34, R51, R93, R160) -/

namespace Sys2Proof.Machine

section
variable {s t : State}

theorem StepEffect.sizePred_eq (h : StepEffect s t) : t.sizePred = s.sizePred := by
  cases h <;> rfl

theorem StepEffect.maxBytes_eq (h : StepEffect s t) : t.maxBytes = s.maxBytes :=
  congrArg (fun n : Fin 255 => n.val + 1) h.sizePred_eq

/-- Memory is written by the memory's own operations only, which keep the canonical form. -/
theorem StepEffect.keeps_memory_wf (h : StepEffect s t) (hs : Memory.wf s.mem) : Memory.wf t.mem := by
  cases h with
  | output bytes => exact Memory.writeBlock_wf hs _ _
  | bits symbols => exact Memory.writeBlock_wf hs _ _
  | inputCell a v => exact Memory.write_wf hs _ _
  | reset rest => exact Memory.drawn_wf s.maxBytes_bounds.2 _
  | status | csum | accepted | registers => exact hs

/-- A block of existing cells, written to a memory that lists existing cells only, keeps it so. -/
theorem cellsExist_writeBlock {base : Nat} {bytes : List Byte} (hs : cellsExist s)
    (hblock : ∀ a, base ≤ a → a < base + bytes.length → isCellAddr s.maxBytes a = true) :
    ∀ c ∈ Memory.writeBlock s.mem base bytes, isCellAddr s.maxBytes c.1 = true := fun c hc =>
  (Memory.mem_writeBlock hc).elim (fun ⟨hle, hlt⟩ => hblock c.1 hle hlt) (hs c)

/-- A step writes to existing cells only (R51). -/
theorem StepEffect.keeps_cellsExist (h : StepEffect s t) (hs : cellsExist s) : cellsExist t := by
  cases h with
  | output bytes _ _ fits =>
    exact cellsExist_writeBlock hs fun _ hle hlt =>
      isCellAddr_iff.mpr (.inr (.inl ⟨hle, hlt.trans_le (Nat.add_le_add_left fits _)⟩))
  | bits symbols _ _ fits =>
    exact cellsExist_writeBlock hs fun _ hle hlt =>
      isCellAddr_iff.mpr (.inr (.inr ⟨hle, hlt.trans_le (Nat.add_le_add_left fits _)⟩))
  | inputCell a v _ _ cell =>
    intro c hc
    rcases Memory.mem_write hc with rfl | hc
    · exact isCellAddr_iff.mpr (cell.imp id .inr)
    · exact hs c hc
  | reset rest => exact fun c hc => mem_cellAddrs_iff_isCellAddr.mp (Memory.mem_drawn hc)
  | status | csum | accepted | registers => exact hs

/-- The reachable combinations of R29: ERR only with DONE, and BUSY only without DONE. -/
theorem statusLegal_iff {s : State} :
    statusLegal s = true ↔ (s.err = true → s.done = true) ∧ (s.busy = true → s.done = false) := by
  unfold statusLegal
  cases s.busy <;> cases s.done <;> cases s.err <;> decide

/-- A completion leaves DONE with any ERR, and no BUSY (R93). -/
theorem statusLegal_finish (code : Nibble) (s : State) : statusLegal (finish code s) = true := by
  simp [statusLegal_iff]

theorem StepEffect.keeps_statusLegal (h : StepEffect s t) (hs : statusLegal s = true) : statusLegal t = true := by
  cases h with
  | status | csum | output | bits => exact statusLegal_finish _ _
  | accepted | reset => rfl
  | inputCell | registers => exact hs

/-- A completion leaves ERR as its code says (R93). -/
theorem errorLegal_finish {code : Nibble} (hcode : code.toNat < 8) (s : State) :
    errorLegal (finish code s) = true :=
  errorLegal_iff.mpr ⟨rfl, hcode⟩

theorem StepEffect.keeps_errorLegal (h : StepEffect s t) (hs : errorLegal s = true) : errorLegal t = true := by
  cases h with
  | status code _ defined => exact errorLegal_finish defined s
  | csum | output | bits => exact errorLegal_finish (by decide) _
  | accepted | reset => rfl
  | inputCell | registers => exact hs

/-- OUTLEN holds the length of every output that fits OUT (R34). -/
theorem writeOutput_outlen_toNat {bytes : List Byte} (h : bytes.length ≤ s.maxBytes) :
    (writeOutput bytes s).outlen.toNat = bytes.length :=
  Nat.mod_eq_of_lt (by have := s.maxBytes_bounds; omega)

theorem StepEffect.keeps_countsLegal (h : StepEffect s t) (hs : countsLegal s = true) : countsLegal t = true := by
  obtain ⟨hout, hwait⟩ := countsLegal_iff.mp hs
  refine countsLegal_iff.mpr ?_
  cases h with
  | status | csum | bits => exact ⟨hout, .inr rfl⟩
  | output bytes _ _ fits => exact ⟨(writeOutput_outlen_toNat fits).trans_le fits, .inr rfl⟩
  | accepted => exact ⟨hout, .inl rfl⟩
  | reset => exact ⟨Nat.zero_le _, .inr rfl⟩
  | inputCell _ _ rest idle =>
    exact ⟨hout, hwait.imp id fun h0 => (hostReady_latency_of_idle rest idle).trans h0⟩
  | registers _ _ _ _ _ _ _ idle =>
    refine ⟨hout, ?_⟩
    cases hb : s.busy with
    | true => exact .inl rfl
    | false => exact .inr ((idle hb).trans (hwait.resolve_left (by simp [hb])))

end

/-- Settles O47: each part of the invariant is kept by every kind of step. -/
theorem stepKeepsInvariant : Obligations.StepKeepsInvariant := by
  intro s t hs h
  have e := stepEffect_of_step h
  exact ⟨e.keeps_memory_wf hs.memory, e.keeps_cellsExist hs.cells, e.keeps_statusLegal hs.status,
    e.keeps_errorLegal hs.error, e.keeps_countsLegal hs.counts⟩

/-- Where only existing cells are listed, every other address reads 0x00 (R51, R56). -/
theorem read_eq_zero_of_not_cell {s : State} (hs : cellsExist s) {a : Nat} (ha : isCellAddr s.maxBytes a = false) :
    Memory.read s.mem a = 0 := by
  by_contra hne
  have hcell := hs _ (Memory.mem_of_read_ne hne)
  rw [ha] at hcell
  cases hcell

/-- Settles O50: the canonical form and the existence of the listed cells are kept together, and an address that is
not listed reads 0x00. -/
theorem stepKeepsMemoryCanonical : Obligations.StepKeepsMemoryCanonical := by
  intro s t hwf hcells h
  have e := stepEffect_of_step h
  exact ⟨e.keeps_memory_wf hwf, fun _ ha => read_eq_zero_of_not_cell (e.keeps_cellsExist hcells) ha⟩

/-- STATUS as a number: `BUSY | DONE << 1 | ERR << 2 | REJ << 3` (R29). -/
theorem statusByte_toNat (s : State) :
    (statusByte s).toNat = s.busy.toNat + 2 * s.done.toNat + 4 * s.err.toNat + 8 * s.rej.toNat := by
  unfold statusByte
  cases s.busy <;> cases s.done <;> cases s.err <;> cases s.rej <;> rfl

/-- In each of the four legal combinations STATUS[2:0] is 0, 1, 2 or 6, and REJ is its only other bit (R29). -/
theorem statusByte_of_statusLegal {s : State} (h : statusLegal s = true) :
    ((statusByte s).toNat % 8 = 0 ∨ (statusByte s).toNat % 8 = 1 ∨ (statusByte s).toNat % 8 = 2 ∨
      (statusByte s).toNat % 8 = 6) ∧ (statusByte s).toNat < 16 := by
  obtain ⟨hErr, hBusy⟩ := statusLegal_iff.mp h
  have hRej := s.rej.toNat_le
  rw [statusByte_toNat]
  cases hd : s.done with
  | false =>
    have he : s.err = false := by simpa [hd] using hErr
    have hb := s.busy.toNat_le
    simp only [he, Bool.toNat_false]
    omega
  | true =>
    have hb : s.busy = false := by simpa [hd] using hBusy
    have he := s.err.toNat_le
    simp only [hb, Bool.toNat_false, Bool.toNat_true]
    omega

/-- Settles O49: every kind of step keeps the legal combinations, and they make the status byte what it is. -/
theorem stepKeepsStatusLegal : Obligations.StepKeepsStatusLegal := by
  intro s t hs h
  have ht := (stepEffect_of_step h).keeps_statusLegal hs
  exact ⟨ht, statusByte_of_statusLegal ht⟩

/-- The state after a reset of a machine of any size, with any draw, meets the invariant. -/
theorem stateInv_afterReset (sizePred : Fin 255) (n : Nat) : StateInv (State.afterReset sizePred n) where
  memory := Memory.drawn_wf (Nat.succ_le_of_lt sizePred.isLt) n
  cells := fun _ hc => mem_cellAddrs_iff_isCellAddr.mp (Memory.mem_drawn hc)
  status := rfl
  error := rfl
  counts := countsLegal_iff.mpr ⟨Nat.zero_le _, .inr rfl⟩

/-- Settles O48: a reset in the course of a run differs from power-up in the draw and the host's side only, of which the
invariant does not speak. -/
theorem resetMeetsInvariant : Obligations.ResetMeetsInvariant := by
  refine ⟨stateInv_afterReset _ _, fun s => ?_⟩
  obtain ⟨memory, cells, status, error, counts⟩ := stateInv_afterReset s.sizePred s.draws
  exact ⟨memory, cells, status, error, counts⟩

end Sys2Proof.Machine

/-! ### What only some steps change: CSUM (R32), OUT and OUTLEN (R27, R34) -/

namespace Sys2Proof.Machine

/-- Settles O44: only the completion of CHECKSUM with code 0 and reset touch the field. -/
theorem csumChangesOnlyByChecksum : Obligations.CsumChangesOnlyByChecksum := by
  intro s t h hne
  cases stepEffect_of_step h with
  | csum n due command => exact .inl ⟨due, command, rfl⟩
  | reset rest notDue next => exact .inr ⟨notDue, rest, next⟩
  | status | output | bits | accepted | inputCell | registers => exact absurd rfl hne

/-- OUT and OUTLEN are the same in both states. -/
def SameOutput (s t : State) : Prop := t.outlen = s.outlen ∧ ∀ j, j < s.maxBytes → outCell t j = outCell s j

/-- PACK writes above the OUT window (R50). -/
theorem sameOutput_writeBits (symbols : List Byte) (s : State) : SameOutput s (writeBits symbols s) := by
  refine ⟨rfl, fun j hj => Memory.read_writeBlock_outside ?_⟩
  have := s.maxBytes_bounds
  simp only [bsBase, outBase]
  omega

/-- A cell of IN or BS is no cell of OUT (R50, R51). -/
theorem read_write_inputCell {s : State} {a j : Nat} (v : Byte) (hj : j < s.maxBytes)
    (ha : (inBase ≤ a ∧ a < inBase + s.maxBytes) ∨ (bsBase ≤ a ∧ a < bsBase + 6 * s.maxBytes)) :
    Memory.read (Memory.write s.mem a v) (outBase + j) = outCell s j := by
  have hne : a ≠ outBase + j := by
    have := s.maxBytes_bounds
    simp only [inBase, bsBase, outBase] at ha ⊢
    omega
  rw [Memory.read_write, if_neg hne, outCell]

/-- A step leaves OUT and OUTLEN as they are, or is one of those that may write them. -/
theorem StepEffect.output_cases {s t : State} (h : StepEffect s t) :
    SameOutput s t ∨
    (completionDue s = true ∧ t.errcode = 0 ∧
      (decodeByte s.cmd = .encode ∨ decodeByte s.cmd = .decode ∨ decodeByte s.cmd = .unpack)) ∨
    (completionDue s = false ∧ ∃ rest, s.program = .reset :: rest) := by
  cases h with
  | output bytes due command => exact .inr (.inl ⟨due, rfl, command⟩)
  | reset rest notDue next => exact .inr (.inr ⟨notDue, rest, next⟩)
  | bits symbols => exact .inl (sameOutput_writeBits symbols s)
  | inputCell a v _ _ cell => exact .inl ⟨rfl, fun _ hj => read_write_inputCell v hj cell⟩
  | status | csum | accepted | registers => exact .inl ⟨rfl, fun _ _ => rfl⟩

/-- Settles O45: a step that leaves both OUT and OUTLEN as they are has changed neither. -/
theorem outputChangesOnlyByItsCommands : Obligations.OutputChangesOnlyByItsCommands := by
  intro s t h hchanged
  refine (stepEffect_of_step h).output_cases.resolve_left fun ⟨hlen, hcells⟩ => ?_
  rcases hchanged with hne | ⟨j, hj, hne⟩
  · exact hne hlen
  · exact hne (hcells j hj)

end Sys2Proof.Machine

/-! ### The constants: the cipher table (R23), TBLSIZE and MAXB (R36), and the registers after reset (R38) -/

namespace Sys2Proof.Machine

/-- R58 leaves only the reads of result locations unspecified: any other reads as R52 gives it in every state. -/
theorem busByte_of_not_result {s : State} {a : Addr} {l : Loc} (ha : locate s.maxBytes a = l)
    (hl : l.isResult = false) : busByte s a = readLoc s l := by
  simp [busByte, readIsOpen, ha, hl]

theorem hostWrite_of_idle {s : State} (hb : s.busy = false) (a : Addr) (v : Byte) :
    hostWrite a v s = writeLoc v s (locate s.maxBytes a) := by
  simp [hostWrite, hb]

theorem romAt_eq_getElem {j : Nat} (h : j < rom.length) : romAt j = rom[j] :=
  List.getD_eq_getElem _ _ h

/-- Settles O6: an address of the ROM window names a table entry, which is no result location. -/
theorem cipherTableContents : Obligations.CipherTableContents := by
  refine ⟨rfl, fun s j h => ?_⟩
  have hj : j < 48 := h
  have ha : (BitVec.ofNat 12 (0xC00 + j)).toNat = 0xC00 + j := Nat.mod_eq_of_lt (by omega)
  rw [busByte_of_not_result (locate_romCell ha hj) rfl]
  exact romAt_eq_getElem h

theorem locate_tblsize (maxBytes : Nat) : locate maxBytes 0x00E = .tblsize := rfl

theorem locate_maxb (maxBytes : Nat) : locate maxBytes 0x00F = .maxb := rfl

/-- Settles O7: TBLSIZE and MAXB are locations that no write changes, and no step changes the size. -/
theorem constantsNeverChange : Obligations.ConstantsNeverChange := by
  refine ⟨fun s t h => (stepEffect_of_step h).sizePred_eq, fun s => ?_⟩
  obtain ⟨hmin, hmax⟩ := s.maxBytes_bounds
  refine ⟨?_, ?_, hmin, hmax, fun v hb => ⟨?_, ?_⟩⟩
  · rw [busByte_of_not_result (locate_tblsize _) rfl]
    rfl
  · rw [busByte_of_not_result (locate_maxb _) rfl]
    exact Nat.mod_eq_of_lt (by omega)
  · rw [hostWrite_of_idle hb, locate_tblsize, writeLoc]
  · rw [hostWrite_of_idle hb, locate_maxb, writeLoc]

/-- Settles O8: these are the values of `State.afterReset`. -/
theorem resetClearsRegisters : Obligations.ResetClearsRegisters := ⟨fun _ => rfl, rfl, rfl⟩

end Sys2Proof.Machine

/-! ### The host address map as a table of locations (R50, R51), and the reads and writes it lists (R52, R53) -/

namespace Sys2Proof.Machine

/-- On a machine with MAX_BYTES `m`, host address `n` names the location: one row for each register, for the existing
cells of each window, and for the reserved addresses below and above 0x010 (R50, R51). -/
inductive Names (m n : Nat) : Loc → Prop where
  | cmd (addr : n = 0x000) : Names m n .cmd
  | status (addr : n = 0x001) : Names m n .status
  | errcode (addr : n = 0x002) : Names m n .errcode
  | csum (addr : n = 0x003) : Names m n .csum
  | len (addr : n = 0x004) : Names m n .len
  | outlen (addr : n = 0x005) : Names m n .outlen
  | bslenL (addr : n = 0x006) : Names m n .bslenL
  | bslenH (addr : n = 0x007) : Names m n .bslenH
  | tblsize (addr : n = 0x00E) : Names m n .tblsize
  | maxb (addr : n = 0x00F) : Names m n .maxb
  | inCell (first : 0x100 ≤ n) (last : n ≤ 0x1FF) (cell : n - 0x100 < m) : Names m n (.inCell (n - 0x100))
  | outCell (first : 0x200 ≤ n) (last : n ≤ 0x2FF) (cell : n - 0x200 < m) : Names m n (.outCell (n - 0x200))
  | bsCell (first : 0x400 ≤ n) (last : n ≤ 0x9FF) (cell : n - 0x400 < 6 * m) : Names m n (.bsCell (n - 0x400))
  | romCell (first : 0xC00 ≤ n) (last : n ≤ 0xC3F) (cell : n - 0xC00 < 48) : Names m n (.romCell (n - 0xC00))
  | noRegister (first : 0x008 ≤ n) (last : n ≤ 0x00D) : Names m n .reserved
  | noCell (first : 0x010 ≤ n) (noIn : ¬(0x100 ≤ n ∧ n ≤ 0x1FF ∧ n - 0x100 < m))
    (noOut : ¬(0x200 ≤ n ∧ n ≤ 0x2FF ∧ n - 0x200 < m)) (noBs : ¬(0x400 ≤ n ∧ n ≤ 0x9FF ∧ n - 0x400 < 6 * m))
    (noRom : ¬(0xC00 ≤ n ∧ n ≤ 0xC3F ∧ n - 0xC00 < 48)) : Names m n .reserved

theorem names_locateRegister {m : Nat} : ∀ {n : Nat}, n < 0x010 → Names m n (locateRegister n)
  | 0x000, _ => .cmd rfl
  | 0x001, _ => .status rfl
  | 0x002, _ => .errcode rfl
  | 0x003, _ => .csum rfl
  | 0x004, _ => .len rfl
  | 0x005, _ => .outlen rfl
  | 0x006, _ => .bslenL rfl
  | 0x007, _ => .bslenH rfl
  | 0x008, _ | 0x009, _ | 0x00A, _ | 0x00B, _ | 0x00C, _ | 0x00D, _ => .noRegister (by decide) (by decide)
  | 0x00E, _ => .tblsize rfl
  | 0x00F, _ => .maxb rfl
  | n + 0x010, h => absurd h (Nat.not_lt.mpr (Nat.le_add_left _ n))

/-- Every address names the location the map gives it. -/
theorem names_locateNat (m n : Nat) : Names m n (locateNat m n) := by
  rcases locateNat_cases m n with ⟨h, e⟩ | ⟨first, last, cell, e⟩ | ⟨first, last, cell, e⟩ | ⟨first, last, cell, e⟩ |
    ⟨first, last, cell, e⟩ | ⟨first, noIn, noOut, noBs, noRom, e⟩ <;> rw [e]
  · exact names_locateRegister h
  · exact .inCell first last cell
  · exact .outCell first last cell
  · exact .bsCell first last cell
  · exact .romCell first last cell
  · exact .noCell first noIn noOut noBs noRom

theorem names_locate (m : Nat) (a : Addr) : Names m a.toNat (locate m a) := names_locateNat m a.toNat

/-! The two parts of BSLEN as numbers (R35) -/

/-- BSLEN is its two parts: 256 times BSLEN_H and BSLEN_L (R35). -/
theorem bslen_append_eq_ofNat (high : BitVec 3) (low : Byte) :
    (high ++ low : BitVec 11) = BitVec.ofNat 11 (high.toNat * 256 + low.toNat) := by
  refine BitVec.eq_of_toNat_eq ?_
  have h : (high ++ low).toNat = high.toNat * 256 + low.toNat := by
    rw [BitVec.toNat_append, ← Nat.shiftLeft_add_eq_or_of_lt low.isLt, Nat.shiftLeft_eq]
  rw [BitVec.toNat_ofNat, ← h, Nat.mod_eq_of_lt (high ++ low).isLt]

/-- BSLEN_H of a BSLEN, a number below 8 (R35). -/
theorem bslenH_toNat (n : BitVec 11) : (n.extractLsb' 8 3).toNat = n.toNat / 256 := by
  have := n.isLt
  rw [BitVec.extractLsb'_toNat, Nat.shiftRight_eq_div_pow]
  omega

section
variable {s : State} {n : Nat} {l : Loc}

/-- The byte of a location is the one R52 lists for its address. -/
theorem Names.readLoc_eq (h : Names s.maxBytes n l) : readLoc s l = idleReadTable s n := by
  cases h with
  | cmd addr | status addr | errcode addr | csum addr | len addr | outlen addr | tblsize addr | maxb addr =>
    subst addr; rfl
  | bslenL addr =>
    subst addr
    change s.bslen.setWidth 8 = BitVec.ofNat 8 (s.bslen.toNat % 256)
    exact BitVec.eq_of_toNat_eq (by simp)
  | bslenH addr =>
    subst addr
    change (s.bslen.extractLsb' 8 3).setWidth 8 = BitVec.ofNat 8 (s.bslen.toNat / 256)
    rw [← bslenH_toNat, BitVec.ofNat_toNat]
  | inCell | outCell | bsCell | romCell => simp (disch := omega) only [idleReadTable, if_neg, if_pos]; rfl
  | noRegister | noCell => simp (disch := omega) only [idleReadTable, if_neg]; rfl

theorem isResultAddr_iff : isResultAddr s n = true ↔ n = 0x003 ∨ n = 0x005 ∨ n = 0x006 ∨ n = 0x007 ∨
    (0x200 ≤ n ∧ n ≤ 0x2FF ∧ n - 0x200 < s.maxBytes) ∨ (0x400 ≤ n ∧ n ≤ 0x9FF ∧ n - 0x400 < 6 * s.maxBytes) := by
  simp [isResultAddr, or_assoc, and_assoc]

/-- The result locations are those R58 lists by their addresses. -/
theorem Names.isResult_iff (h : Names s.maxBytes n l) : l.isResult = true ↔ isResultAddr s n = true := by
  rw [isResultAddr_iff]
  cases h with
  | csum | outlen | bslenL | bslenH | outCell | bsCell => exact iff_of_true rfl (by omega)
  | cmd | status | errcode | len | tblsize | maxb | inCell | romCell | noRegister | noCell =>
    exact iff_of_false Bool.false_ne_true (by omega)

theorem Names.writeLoc_eq (h : Names s.maxBytes n l) (v : Byte) : writeLoc v s l = idleWriteTable n v s := by
  cases h with
  | cmd addr | errcode addr | csum addr | len addr | outlen addr | tblsize addr | maxb addr => subst addr; rfl
  | status addr =>
    subst addr
    change { s with rej := s.rej && !v.getLsbD 3 } = if v.getLsbD 3 then { s with rej := false } else s
    cases v.getLsbD 3 <;> simp
  | bslenL addr =>
    subst addr
    change { s with bslen := s.bslen.extractLsb' 8 3 ++ v } =
      { s with bslen := BitVec.ofNat 11 (s.bslen.toNat / 256 * 256 + v.toNat) }
    rw [bslen_append_eq_ofNat, bslenH_toNat]
  | bslenH addr =>
    subst addr
    change { s with bslen := v.extractLsb' 0 3 ++ s.bslen.extractLsb' 0 8 } =
      { s with bslen := BitVec.ofNat 11 (v.toNat % 8 * 256 + s.bslen.toNat % 256) }
    rw [bslen_append_eq_ofNat, BitVec.extractLsb'_toNat, BitVec.extractLsb'_toNat]
    rfl
  | inCell first | bsCell first =>
    simp (disch := omega) only [idleWriteTable, if_neg, if_pos, writeLoc, Nat.add_sub_cancel' first]
  | outCell | romCell => simp (disch := omega) only [idleWriteTable, if_neg, writeLoc]
  | noRegister | noCell => simp (disch := omega) only [idleWriteTable, if_neg, writeLoc]

theorem isReadOnlyAddr_iff : isReadOnlyAddr n = true ↔ n = 0x002 ∨ n = 0x003 ∨ n = 0x005 ∨ n = 0x00E ∨ n = 0x00F ∨
    (0x200 ≤ n ∧ n ≤ 0x2FF) ∨ (0xC00 ≤ n ∧ n ≤ 0xC3F) := by
  simp [isReadOnlyAddr, or_assoc]

/-- A read-only address names no location that a write changes (R54). -/
theorem Names.writeLoc_of_readOnly (h : Names s.maxBytes n l) (hr : isReadOnlyAddr n = true) (v : Byte) :
    writeLoc v s l = s := by
  rw [isReadOnlyAddr_iff] at hr
  cases h with
  | errcode | csum | outlen | tblsize | maxb | outCell | romCell | noRegister | noCell => rfl
  | cmd | status | len | bslenL | bslenH | inCell | bsCell => omega

theorem isReservedAddr_iff : isReservedAddr s n = true ↔
    (0x008 ≤ n ∧ n ≤ 0x00D) ∨ (0x010 ≤ n ∧ n ≤ 0x0FF) ∨ (0x300 ≤ n ∧ n ≤ 0x3FF) ∨ (0xA00 ≤ n ∧ n ≤ 0xBFF) ∨
    (0xC40 ≤ n ∧ n ≤ 0xFFF) ∨ (0x100 ≤ n ∧ n ≤ 0x1FF ∧ s.maxBytes ≤ n - 0x100) ∨
    (0x200 ≤ n ∧ n ≤ 0x2FF ∧ s.maxBytes ≤ n - 0x200) ∨ (0x400 ≤ n ∧ n ≤ 0x9FF ∧ 6 * s.maxBytes ≤ n - 0x400) ∨
    (0xC00 ≤ n ∧ n ≤ 0xC3F ∧ 48 ≤ n - 0xC00) := by
  simp [isReservedAddr, or_assoc, and_assoc]

/-- A reserved address names no location (R51, R56). -/
theorem Names.eq_reserved (h : Names s.maxBytes n l) (hr : isReservedAddr s n = true) : l = .reserved := by
  rw [isReservedAddr_iff] at hr
  cases h with
  | noRegister | noCell => rfl
  | cmd | status | errcode | csum | len | outlen | bslenL | bslenH | tblsize | maxb | inCell | outCell | bsCell
  | romCell => omega

end

/-! ### Host accesses (R52, R53, R54, R56, R57, R58) -/

theorem readIsOpen_eq (s : State) (a : Addr) : readIsOpen s a = (s.busy && isResultAddr s a.toNat) := by
  rw [readIsOpen, Bool.eq_iff_iff.mpr (names_locate s.maxBytes a).isResult_iff]

/-- What the bus returns in any state: a draw for a result address while BUSY is 1, else the byte of R52. -/
theorem busByte_eq (s : State) (a : Addr) : busByte s a =
    if s.busy && isResultAddr s a.toNat then Config.busyByte s.draws else idleReadTable s a.toNat := by
  rw [busByte, readIsOpen_eq, (names_locate s.maxBytes a).readLoc_eq]

/-- Settles O11: a read only appends its byte to the replies, and no idle read is a draw. -/
theorem idleReadReturnsListedByte : Obligations.IdleReadReturnsListedByte := by
  refine ⟨fun s a => ⟨rfl, _, rfl⟩, fun s a hb => ?_⟩
  simp only [hostRead, busByte_eq, readIsOpen_eq, hb, Bool.false_and, Bool.false_eq_true, if_false]

/-- Settles O12: while BUSY is 1 exactly the reads of result addresses are draws. -/
theorem busyReadReturnsDrawOrByte : Obligations.BusyReadReturnsDrawOrByte := by
  intro s a hb
  refine ⟨rfl, ?_, ?_⟩
  · rw [hostRead_replies, busByte_eq, hb, Bool.true_and]
  · rw [hostRead_draws, readIsOpen_eq, hb, Bool.true_and]

/-- Settles O13: the write of a location is the row of R53 for its address. -/
theorem idleWriteHasListedEffect : Obligations.IdleWriteHasListedEffect := by
  intro s a v hb
  rw [hostWrite_of_idle hb, (names_locate s.maxBytes a).writeLoc_eq]

/-- Settles O14: a read-only address names no location that a write changes. -/
theorem readOnlyWriteHasNoEffect : Obligations.ReadOnlyWriteHasNoEffect := by
  intro s a v hb hr
  rw [hostWrite_of_idle hb, (names_locate s.maxBytes a).writeLoc_of_readOnly hr]

/-- Settles O15: a reserved address names no location, and no command updates one. -/
theorem reservedAddressReadsZero : Obligations.ReservedAddressReadsZero := by
  intro s a v hr
  have hl : locate s.maxBytes a = .reserved := (names_locate s.maxBytes a).eq_reserved hr
  refine ⟨busByte_of_not_result hl rfl, fun hb => ?_⟩
  rw [hostWrite_of_idle hb, hl, writeLoc]

theorem hostWrite_of_busy {s : State} (hb : s.busy = true) (a : Addr) (v : Byte) :
    hostWrite a v s = { s with rej := true } :=
  if_pos hb

/-- Settles O16: a step that is no completion and no reset is a wait, a read or a rejected write. -/
theorem busyWriteIsRejected : Obligations.BusyWriteIsRejected := by
  refine ⟨fun s a v hb => hostWrite_of_busy hb a v, fun s t hb notDue noReset h => ?_⟩
  rcases step_cases h with ⟨due, -⟩ | ⟨-, -, rfl⟩ | ⟨-, e, rest, next, he⟩
  · cases due.symm.trans notDue
  · rfl
  · rcases hostEvent_cases he with ⟨a, rfl, rfl⟩ | ⟨a, v, rfl, rfl⟩ | ⟨rfl, rfl | rfl⟩ | ⟨rfl, rfl⟩
    · rfl
    · rw [hostWrite_of_busy (s := hostReady rest s) hb]
      rfl
    · rfl
    · rfl
    · exact absurd next (noReset rest)

end Sys2Proof.Machine

/-! ### The host's turn: events taken (R62, R182) and accesses refused (R60) -/

namespace Sys2Proof.Machine

theorem step_of_event {s : State} {e : HostEvent} {rest : List HostEvent} (h : completionDue s = false)
    (next : s.program = e :: rest) : step s = hostEvent e (hostReady rest s) := by
  simp [step, h, hostTurn, next]

theorem step_of_no_event {s : State} (h : completionDue s = false) (none : s.program = []) : step s = .next s := by
  simp [step, h, hostTurn, none]

@[simp] theorem hostEvent_bus_one (x : Txn) (s : State) : hostEvent (.bus x 1) s = .next (hostTxn x s) := rfl

theorem completionDue_of_idle {s : State} (h : s.busy = false) : completionDue s = false := by
  simp [completionDue, h]

/-- Settles O38: each event is taken off the program and has its effect; an idle machine without events waits. -/
theorem stepTakesNextHostEvent : Obligations.StepTakesNextHostEvent := by
  refine ⟨fun s x rest notDue next => ?_, fun s rest notDue next => ?_, fun s idle next => ?_⟩
  · rw [step_of_event notDue next, hostEvent_bus_one]
  · exact step_of_event notDue next
  · exact step_of_no_event (completionDue_of_idle idle) next

/-- The completion of a command is never refused (R168). -/
theorem exec_isNext (i : Instr) (s : State) : ∃ t, exec i s = .next t := by
  rcases exec_cases i s with ⟨_, h⟩ | ⟨-, h⟩ | ⟨-, h⟩ | ⟨-, -, h⟩ | ⟨-, -, h⟩ | ⟨-, -, h⟩ <;> exact ⟨_, h⟩

/-- A host event is refused exactly when it is a bus access that is not one byte wide (R60). -/
theorem hostEvent_eq_refused_iff {e : HostEvent} {s : State} {r : Refusal} :
    hostEvent e s = .refused r ↔ r = .wideAccess ∧ ∃ x size, e = .bus x size ∧ size ≠ 1 := by
  cases e with
  | bus x size =>
    by_cases hs : size = 1
    · simp [hs]
    · simp [hostEvent, hs, eq_comm]
  | wait =>
    simp only [hostEvent]
    split <;> simp
  | reset => simp [hostEvent]

/-- Settles O40: neither a completion nor a waiting machine is refused, so a refused step is a refused event. -/
theorem onlyWideAccessIsRefused : Obligations.OnlyWideAccessIsRefused := by
  intro s r
  cases hd : completionDue s with
  | true =>
    obtain ⟨t, ht⟩ := exec_isNext (decodeByte s.cmd) s
    simp [step, hd, ht]
  | false =>
    cases hp : s.program with
    | nil => simp [step_of_no_event hd hp]
    | cons e rest =>
      rw [step_of_event hd hp, hostEvent_eq_refused_iff]
      simp

end Sys2Proof.Machine

/-! ### The command bytes (R72, R73, R74, R77): the rows of the opcode table against the decoder and the encoder -/

namespace Sys2Proof

/-- How many low bits of the byte an instruction's row leaves free (R73, R74). -/
def Instr.freeBits : Instr → Nat
  | .nop | .encode | .decode | .checksum | .pack | .unpack => 0
  | .reserved06 _ => 1
  | .reserved80 _ => 7
  | .reserved40 _ => 6
  | .reserved20 _ => 5
  | .reserved10 _ => 4
  | .reserved08 _ => 3

/-- The instruction of the same row for the byte `c`: a reserved one carries it, a named one has none to carry (R99). -/
def Instr.withByte (c : Byte) : Instr → Instr
  | .reserved06 _ => .reserved06 c
  | .reserved80 _ => .reserved80 c
  | .reserved40 _ => .reserved40 c
  | .reserved20 _ => .reserved20 c
  | .reserved10 _ => .reserved10 c
  | .reserved08 _ => .reserved08 c
  | i => i

theorem Instr.row_withByte (c : Byte) (i : Instr) : (i.withByte c).row = i.row := by
  cases i <;> rfl

theorem Instr.withByte_encodeByte (i : Instr) : i.withByte (encodeByte i) = i := by
  cases i <;> rfl

/-- Well-formed says that the instruction's own byte lies in its row. -/
theorem Instr.wellFormed_eq_covers (i : Instr) : i.wellFormed = i.row.covers (encodeByte i) := by
  cases i <;> rfl

theorem Instr.row_mask_eq (i : Instr) : i.row.mask = BitVec.allOnes 8 <<< i.freeBits := by
  cases i <;> simp [Instr.row, Instr.freeBits]

/-- A mask of ones above the `k` low bits clears these bits. -/
theorem and_allOnes_shiftLeft (c : Byte) (k : Nat) : c &&& BitVec.allOnes 8 <<< k = (c >>> k) <<< k := by
  ext j hj
  by_cases hk : j < k
  · simp [hk]
  · have hback : k + (j - k) = j := by omega
    simp only [BitVec.getElem_and, BitVec.getElem_shiftLeft, BitVec.getElem_allOnes, BitVec.getElem_ushiftRight, hk,
      hback, BitVec.getLsbD_eq_getElem hj, decide_false, Bool.not_false, Bool.true_and, Bool.and_true]

/-- A byte lies in a row when it agrees with the row's pattern above the free bits. -/
theorem Instr.row_covers_iff (i : Instr) (c : Byte) :
    i.row.covers c = true ↔ c.toNat / 2 ^ i.freeBits * 2 ^ i.freeBits = i.row.pattern.toNat := by
  have hlt : c.toNat / 2 ^ i.freeBits * 2 ^ i.freeBits < 2 ^ 8 := (Nat.div_mul_le_self ..).trans_lt c.isLt
  rw [OpcodeRow.covers, beq_iff_eq, i.row_mask_eq, and_allOnes_shiftLeft, ← BitVec.toNat_inj, BitVec.toNat_shiftLeft,
    BitVec.toNat_ushiftRight, Nat.shiftLeft_eq, Nat.shiftRight_eq_div_pow, Nat.mod_eq_of_lt hlt]

/-- A row without free bits is one byte. -/
theorem Instr.eq_pattern_of_covers {i : Instr} {c : Byte} (hfree : i.freeBits = 0) (h : i.row.covers c = true) :
    c = i.row.pattern := by
  rw [Instr.row_covers_iff, hfree, Nat.pow_zero, Nat.div_one, Nat.mul_one] at h
  exact BitVec.eq_of_toNat_eq h

theorem encodeByte_withByte {i : Instr} {c : Byte} (h : i.row.covers c = true) : encodeByte (i.withByte c) = c := by
  cases i with
  | nop | encode | decode | checksum | pack | unpack => exact (Instr.eq_pattern_of_covers rfl h).symm
  | reserved06 | reserved80 | reserved40 | reserved20 | reserved10 | reserved08 => rfl

theorem Instr.wellFormed_withByte {i : Instr} {c : Byte} (h : i.row.covers c = true) :
    (i.withByte c).wellFormed = true := by
  rw [Instr.wellFormed_eq_covers, Instr.row_withByte, encodeByte_withByte h, h]

/-! The tests of R77 as facts about the byte's number -/

theorem rsvField_eq_zero_iff (c : Byte) : rsvField c = 0 ↔ c.toNat < 8 := by
  have hc := c.isLt
  rw [rsvField, ← BitVec.toNat_inj, BitVec.extractLsb'_toNat, Nat.shiftRight_eq_div_pow]
  simp only [BitVec.ofNat_eq_ofNat, BitVec.toNat_ofNat]
  omega

theorem opField_eq_iff (c : Byte) (k : BitVec 3) : opField c = k ↔ c.toNat % 8 = k.toNat := by
  rw [opField, ← BitVec.toNat_inj, BitVec.extractLsb'_toNat, Nat.shiftRight_zero]

theorem getLsbD_eq_true_iff (c : Byte) (k : Nat) : c.getLsbD k = true ↔ c.toNat / 2 ^ k % 2 = 1 := by
  rw [BitVec.getLsbD, Nat.testBit_eq_decide_div_mod_eq, decide_eq_true_eq]

/-- The decoder finds the row a byte lies in. A named row is one byte; in a reserved row, the row's range of numbers
answers every test of R77. -/
theorem decodeByte_of_covers {i : Instr} {c : Byte} (h : i.row.covers c = true) : decodeByte c = i.withByte c := by
  cases i with
  | nop | encode | decode | checksum | pack | unpack =>
    obtain rfl := Instr.eq_pattern_of_covers rfl h
    rfl
  | reserved06 | reserved80 | reserved40 | reserved20 | reserved10 | reserved08 =>
    have hc := c.isLt
    rw [Instr.row_covers_iff] at h
    simp only [Instr.freeBits, Instr.row, Nat.reducePow, BitVec.reduceToNat] at h
    simp only [decodeByte, decodeReserved, ne_eq, rsvField_eq_zero_iff, opField_eq_iff, getLsbD_eq_true_iff,
      Instr.withByte, Nat.reducePow, BitVec.reduceToNat]
    simp (disch := omega) only [if_pos, if_neg]

/-- Every byte lies in some row: one of the six named bytes, 0x06 or 0x07, or the row of its highest set bit (R74). -/
theorem exists_row_covers (c : Byte) : ∃ i : Instr, i.row.covers c = true := by
  have hc := c.isLt
  simp only [Instr.row_covers_iff]
  obtain h | h | h | h | h | h | h | h | h | h | h | h : c.toNat = 0 ∨ c.toNat = 1 ∨ c.toNat = 2 ∨ c.toNat = 3 ∨
      c.toNat = 4 ∨ c.toNat = 5 ∨ c.toNat / 2 = 3 ∨ c.toNat / 8 = 1 ∨ c.toNat / 16 = 1 ∨ c.toNat / 32 = 1 ∨
      c.toNat / 64 = 1 ∨ c.toNat / 128 = 1 := by omega
  · exact ⟨.nop, by rw [h]; rfl⟩
  · exact ⟨.encode, by rw [h]; rfl⟩
  · exact ⟨.decode, by rw [h]; rfl⟩
  · exact ⟨.checksum, by rw [h]; rfl⟩
  · exact ⟨.pack, by rw [h]; rfl⟩
  · exact ⟨.unpack, by rw [h]; rfl⟩
  · exact ⟨.reserved06 c, congrArg (· * 2) h⟩
  · exact ⟨.reserved08 c, congrArg (· * 8) h⟩
  · exact ⟨.reserved10 c, congrArg (· * 16) h⟩
  · exact ⟨.reserved20 c, congrArg (· * 32) h⟩
  · exact ⟨.reserved40 c, congrArg (· * 64) h⟩
  · exact ⟨.reserved80 c, congrArg (· * 128) h⟩

/-- Settles O1: the byte of a well-formed instruction lies in its row, which is the row the decoder finds. -/
theorem encodedInstructionDecodesBack : Obligations.EncodedInstructionDecodesBack := by
  intro i h
  rw [Instr.wellFormed_eq_covers] at h
  rw [decodeByte_of_covers h, Instr.withByte_encodeByte]

/-- Settles O2: a byte lies in some row, and whichever row it lies in is the one the decoder finds. -/
theorem everyByteLiesInItsRowOnly : Obligations.EveryByteLiesInItsRowOnly := by
  intro c
  obtain ⟨i, hi⟩ := exists_row_covers c
  rw [decodeByte_of_covers hi, Instr.row_withByte]
  refine ⟨Instr.wellFormed_withByte hi, encodeByte_withByte hi, hi, fun j hj => ?_⟩
  calc j.row = (j.withByte c).row := (Instr.row_withByte c j).symm
    _ = (i.withByte c).row := by rw [← decodeByte_of_covers hj, decodeByte_of_covers hi]
    _ = i.row := Instr.row_withByte c i

/-- Settles O4: each byte is that of a well-formed instruction, so O1 reads it back. -/
theorem writtenOutBytesDecode : Obligations.WrittenOutBytesDecode :=
  have back := encodedInstructionDecodesBack
  ⟨back .nop rfl, back .encode rfl, back .decode rfl, back .checksum rfl, back .pack rfl, back .unpack rfl,
    back (.reserved06 0x07) rfl, back (.reserved80 0x81) rfl, back (.reserved08 0x09) rfl⟩

/-! ### The transaction words (R70, R71) -/

theorem decodeTxn_of_read {w : BitVec 21} (h : w.getLsbD 20 = false) : decodeTxn w = .read (w.extractLsb' 8 12) := by
  simp only [decodeTxn, h, Bool.false_eq_true, if_false]

theorem decodeTxn_of_write {w : BitVec 21} (h : w.getLsbD 20 = true) :
    decodeTxn w = .write (w.extractLsb' 8 12) (w.extractLsb' 0 8) := by
  simp only [decodeTxn, h, if_true]

section
variable (dir : BitVec 1) (a : Addr) (v : Byte)

theorem packedTxn_dir : (dir ++ a ++ v : BitVec 21).getLsbD 20 = dir.getLsbD 0 := by
  rw [BitVec.getLsbD_append, if_neg (by decide), BitVec.getLsbD_append, if_neg (by decide)]

theorem packedTxn_addr : (dir ++ a ++ v : BitVec 21).extractLsb' 8 12 = a := by
  rw [BitVec.extractLsb'_append_eq_of_le le_rfl, BitVec.extractLsb'_append_eq_right]

theorem packedTxn_data : (dir ++ a ++ v : BitVec 21).extractLsb' 0 8 = v := BitVec.extractLsb'_append_eq_right

end

theorem decodeTxn_encodeTxn (x : Txn) : decodeTxn (encodeTxn x) = x := by
  cases x with
  | read a => rw [encodeTxn, decodeTxn_of_read (packedTxn_dir ..), packedTxn_addr]
  | write a v => rw [encodeTxn, decodeTxn_of_write (packedTxn_dir ..), packedTxn_addr, packedTxn_data]

/-- Settles O3: the three fields of a packed word are read back, and bit 20 alone chooses. -/
theorem transactionWordsDecode : Obligations.TransactionWordsDecode :=
  ⟨decodeTxn_encodeTxn, fun _ => ⟨decodeTxn_of_read, decodeTxn_of_write⟩⟩

end Sys2Proof

/-! ### The lines of a host program (R78) -/

namespace Sys2Proof.Machine

/-- A FILL is one write per byte, the address counted up from the base. -/
theorem fillEvents_eq_mapIdx (bytes : List Byte) (base : Addr) : fillEvents base bytes =
    bytes.mapIdx fun j b => writeEvent (BitVec.ofNat 12 (base.toNat + j)) b := by
  induction bytes generalizing base with
  | nil => rfl
  | cons b bs ih =>
    have hnext (j : Nat) : BitVec.ofNat 12 ((base + 1).toNat + j) = BitVec.ofNat 12 (base.toNat + (j + 1)) :=
      BitVec.eq_of_toNat_eq (by simp; omega)
    simp only [fillEvents, ih, List.mapIdx_cons, hnext, Nat.add_zero, BitVec.ofNat_toNat, BitVec.setWidth_eq]

theorem bslenL_eq_ofNat (n : BitVec 11) : n.setWidth 8 = BitVec.ofNat 8 (n.toNat % 256) :=
  BitVec.eq_of_toNat_eq (by simp)

theorem bslenH_eq_ofNat (n : BitVec 11) : (n.extractLsb' 8 3).setWidth 8 = BitVec.ofNat 8 (n.toNat / 256) := by
  rw [← bslenH_toNat, BitVec.ofNat_toNat]

theorem locate_bslenL (maxBytes : Nat) : locate maxBytes 0x006 = .bslenL := rfl

theorem locate_bslenH (maxBytes : Nat) : locate maxBytes 0x007 = .bslenH := rfl

theorem extractLsb'_setWidth_three (x : BitVec 3) : (x.setWidth 8).extractLsb' 0 3 = x := by
  rw [BitVec.extractLsb'_setWidth_of_le (by decide), ← BitVec.setWidth_eq_extractLsb' le_rfl, BitVec.setWidth_eq]

/-- The second write of SETBSLEN keeps the low part the first one wrote, so the two make up the count (R35). -/
theorem hostWrite_setBslen {s : State} (hb : s.busy = false) (n : BitVec 11) :
    hostWrite 0x007 ((n.extractLsb' 8 3).setWidth 8) (hostWrite 0x006 (n.setWidth 8) s) = { s with bslen := n } := by
  have hlow : hostWrite 0x006 (n.setWidth 8) s = { s with bslen := s.bslen.extractLsb' 8 3 ++ n.setWidth 8 } := by
    rw [hostWrite_of_idle hb, locate_bslenL, writeLoc]
  have hparts : (n.extractLsb' 8 3 ++ n.setWidth 8 : BitVec 11) = n := by
    rw [BitVec.setWidth_eq_extractLsb' (by decide)]
    exact BitVec.extractLsb'_append_extractLsb' (w := 3) (len := 8)
  rw [hlow, hostWrite_of_idle (by exact hb), locate_bslenH, writeLoc]
  simp only [extractLsb'_setWidth_three, BitVec.extractLsb'_append_eq_right, hparts]

/-- Settles O5: the lines are their transactions by definition, but for a command's byte (O1), FILL and SETBSLEN. -/
theorem programNotationMeansItsWrites : Obligations.ProgramNotationMeansItsWrites := by
  refine ⟨fun _ _ => rfl, fun _ => rfl, rfl, fun i hi => ⟨encodeByte i, encodedInstructionDecodesBack i hi, rfl⟩, rfl,
    fun base bytes _ => fillEvents_eq_mapIdx bytes base, fun n => ?_⟩
  rw [← bslenL_eq_ofNat, ← bslenH_eq_ofNat]
  exact ⟨rfl, fun s hb => hostWrite_setBslen hb n⟩

/-! ### WAIT (R78, R186) -/

theorem busByte_status (s : State) : busByte s statusAddr = statusByte s :=
  busByte_of_not_result (l := .status) rfl rfl

/-- Bit 0 of the status byte is BUSY (R29). -/
theorem getLsbD_zero_statusByte (s : State) : (statusByte s).getLsbD 0 = s.busy := by
  rw [statusByte, BitVec.getLsbD_append, if_pos (by decide), BitVec.getLsbD_ofBool]
  rfl

/-- STATUS is no result location, so reading it is never a draw (R58). -/
theorem hostRead_status (s : State) :
    hostRead statusAddr s = { s with replies := s.replies ++ [statusByte s] } := by
  have hopen : readIsOpen s statusAddr = false := Bool.and_false _
  simp only [hostRead, hopen, busByte_status, Bool.false_eq_true, if_false]

theorem hostEvent_wait (s : State) : hostEvent .wait s = .next
    { s with program := if s.busy then .wait :: s.program else s.program, replies := s.replies ++ [statusByte s] } := by
  simp only [hostEvent, busByte_status, getLsbD_zero_statusByte, hostRead_status]
  cases s.busy <;> rfl

theorem hostReady_of_idle {s : State} (hb : s.busy = false) (rest : List HostEvent) :
    hostReady rest s = { s with program := rest } := by
  simp [hostReady, hb]

/-- Settles O39: a WAIT reads STATUS and is put back exactly while BUSY is 1. -/
theorem waitPollsUntilIdle : Obligations.WaitPollsUntilIdle := by
  intro s rest notDue next
  refine ⟨_, (step_of_event notDue next).trans (hostEvent_wait _), rfl, fun hb => ⟨if_pos hb, hb⟩, fun hb => ?_⟩
  rw [hostReady_of_idle hb, if_neg (Bool.eq_false_iff.mp hb)]
  rfl

/-! ### The reserved commands (R99) -/

theorem failsWith_of_completeReserved {i : Instr} {s : State} (h : exec i s = completeReserved s) : FailsWith i s 1 :=
  ⟨finish 1 s, h, rfl⟩

/-- Settles O52: every reserved constructor completes the same way, whatever byte it carries. -/
theorem reservedWithAnyByteReportsBadOpcode : Obligations.ReservedWithAnyByteReportsBadOpcode := by
  intro s c
  refine ⟨?_, ?_, ?_, ?_, ?_, ?_⟩ <;> exact failsWith_of_completeReserved rfl

end Sys2Proof.Machine

/-! ### The sequencer (R90, R92, R93, R94): acceptance, completion, and what a completion keeps (R189) -/

namespace Sys2Proof.Machine

/-- `u` holds what the command `i` reads in `s`, the byte in CMD and REJ; PACK alone may replace the binary string
(R26, R33, R189). -/
structure KeepsInputs (i : Instr) (s u : State) : Prop where
  sizePred : u.sizePred = s.sizePred
  cmd : u.cmd = s.cmd
  len : u.len = s.len
  rej : u.rej = s.rej
  inCells : ∀ j, j < s.maxBytes → inCell u j = inCell s j
  binaryString : i ≠ .pack → u.bslen = s.bslen ∧ ∀ j, j < 6 * s.maxBytes → bsCell u j = bsCell s j

theorem KeepsInputs.refl (i : Instr) (s : State) : KeepsInputs i s s :=
  ⟨rfl, rfl, rfl, rfl, fun _ _ => rfl, fun _ => ⟨rfl, fun _ _ => rfl⟩⟩

theorem keepsInputs_csum (i : Instr) (s : State) (n : Nibble) : KeepsInputs i s { s with csum := n } :=
  ⟨rfl, rfl, rfl, rfl, fun _ _ => rfl, fun _ => ⟨rfl, fun _ _ => rfl⟩⟩

/-- A block that fits OUT lies above the IN window and below the BS window (R50). -/
theorem keepsInputs_writeOutput (i : Instr) {s : State} {bytes : List Byte} (fits : bytes.length ≤ s.maxBytes) :
    KeepsInputs i s (writeOutput bytes s) := by
  have := s.maxBytes_bounds
  refine ⟨rfl, rfl, rfl, rfl, fun j hj => Memory.read_writeBlock_outside ?_,
    fun _ => ⟨rfl, fun j hj => Memory.read_writeBlock_outside ?_⟩⟩
  · simp only [inBase, outBase]
    omega
  · simp only [bsBase, outBase]
    omega

/-- PACK writes above the IN window (R50). -/
theorem keepsInputs_writeBits (symbols : List Byte) (s : State) : KeepsInputs .pack s (writeBits symbols s) := by
  have := s.maxBytes_bounds
  refine ⟨rfl, rfl, rfl, rfl, fun j hj => Memory.read_writeBlock_outside ?_, fun notPack => absurd rfl notPack⟩
  simp only [inBase, bsBase]
  omega

/-- Every command ends with the status of a completion, set on a state that keeps its inputs (R93, R189). -/
theorem exec_eq_finish (i : Instr) (s : State) :
    ∃ code u, exec i s = .next (finish code u) ∧ KeepsInputs i s u := by
  rcases exec_cases i s with
    ⟨e, h⟩ | ⟨-, h⟩ | ⟨-, h⟩ | ⟨-, fits, h⟩ | ⟨-, fits, h⟩ | ⟨rfl, -, h⟩
  · exact ⟨_, _, h, .refl i s⟩
  · exact ⟨_, _, h, .refl i s⟩
  · exact ⟨_, _, h, keepsInputs_csum i s _⟩
  · exact ⟨_, _, h, keepsInputs_writeOutput i (by simpa using fits)⟩
  · exact ⟨_, _, h, keepsInputs_writeOutput i (length_unpackBits_fullGroups_le fits)⟩
  · exact ⟨_, _, h, keepsInputs_writeBits _ s⟩

/-- Settles O35: the status is that of a completion, which touches none of the kept fields. -/
theorem everyCommandCompletesKeepingInputs : Obligations.EveryCommandCompletesKeepingInputs := by
  intro i s
  obtain ⟨code, u, h, kept⟩ := exec_eq_finish i s
  exact ⟨finish code u, h, rfl, rfl, bne_iff_ne, kept.cmd, kept.len, kept.rej, kept.sizePred, kept.inCells,
    kept.binaryString⟩

theorem step_of_due {s : State} (due : completionDue s = true) : step s = exec (decodeByte s.cmd) s :=
  if_pos due

/-- Settles O37: the completion of the byte `withFetchWord` places is due at once. -/
theorem stepRunsDecodedCommand : Obligations.StepRunsDecodedCommand := by
  refine ⟨fun s i due decoded => ?_, fun s c => ?_⟩
  · rw [step_of_due due, decoded]
  · have hcmd : (s.withFetchWord 8 c.toNat).cmd = c := by
      simp only [State.withFetchWord, Nat.mod_eq_of_lt c.isLt, BitVec.ofNat_toNat, BitVec.setWidth_eq]
    rw [step_of_due (by rfl), hcmd]

theorem locate_cmd (maxBytes : Nat) : locate maxBytes 0x000 = .cmd := rfl

theorem hostWrite_cmd_of_idle {s : State} (idle : s.busy = false) (v : Byte) : hostWrite 0x000 v s = accept v s := by
  rw [hostWrite_of_idle idle, locate_cmd, writeLoc]

/-- Settles O17: an idle machine takes the host's write, which is an acceptance. -/
theorem cmdWriteAcceptsCommand : Obligations.CmdWriteAcceptsCommand := by
  intro s v rest idle next
  refine ⟨accept v (hostReady rest s), ?_, rfl⟩
  have hready : (hostReady rest s).busy = false := idle
  rw [step_of_event (completionDue_of_idle idle) next, hostEvent_bus_one, hostTxn, hostWrite_cmd_of_idle hready]

/-- Settles O43: of the effects of a step only an acceptance sets BUSY, and only a completion and reset clear it. -/
theorem busyChangesOnlyAsStated : Obligations.BusyChangesOnlyAsStated := by
  intro s t h
  cases stepEffect_of_step h with
  | status _ due | csum _ due | output _ due | bits _ due =>
    exact ⟨fun _ busy => absurd busy Bool.false_ne_true, fun _ _ => .inl due⟩
  | accepted v rest _ next =>
    exact ⟨fun _ _ => ⟨v, rest, next, rfl⟩, fun _ idle => absurd idle.symm Bool.false_ne_true⟩
  | reset rest _ next =>
    exact ⟨fun _ busy => absurd busy Bool.false_ne_true, fun _ _ => .inr ⟨rest, next⟩⟩
  | inputCell | registers =>
    exact ⟨fun idle busy => absurd (idle.symm.trans busy) Bool.false_ne_true,
      fun busy idle => absurd (idle.symm.trans busy) Bool.false_ne_true⟩

/-- Settles O20: NOP is a completion with code 0 and nothing before it. -/
theorem nopOnlyFinishes : Obligations.NopOnlyFinishes := ⟨rfl, fun s => ⟨finish 0 s, rfl, rfl⟩⟩

/-- The commands with a byte above 5 are the reserved ones (R73, R74). -/
theorem failsWith_badOpcode_of_encodeByte {i : Instr} (h : 5 < (encodeByte i).toNat) (s : State) :
    FailsWith i s 1 := by
  cases i with
  | nop | encode | decode | checksum | pack | unpack => exact absurd h (by decide)
  | reserved06 | reserved80 | reserved40 | reserved20 | reserved10 | reserved08 =>
    exact failsWith_of_completeReserved rfl

/-- Settles O21: each of these bytes is above 5 and is the byte of what it decodes to (O2); the constructors are O52. -/
theorem reservedReportsBadOpcode : Obligations.ReservedReportsBadOpcode := by
  refine ⟨fun s c hc => failsWith_badOpcode_of_encodeByte ?_ s, fun s c => ?_⟩
  · obtain ⟨-, hbyte, -⟩ := everyByteLiesInItsRowOnly c
    rw [hbyte]
    rcases hc with hrsv | rfl | rfl
    · have hlarge : ¬ c.toNat < 8 := mt (rsvField_eq_zero_iff c).mpr hrsv
      omega
    · decide
    · decide
  · obtain ⟨h06, h80, h40, h20, h10, h08⟩ := reservedWithAnyByteReportsBadOpcode s c
    exact ⟨fun _ => h06, fun _ => h80, fun _ => h40, fun _ => h20, fun _ => h10, fun _ => h08⟩

end Sys2Proof.Machine

/-! ### A pending command completes (R96, R190) -/

namespace Sys2Proof.Machine

/-- After `k` steps from `s` no command is pending and the last one is done. -/
def CompletedAfter (k : Nat) (s : State) : Prop :=
  ∃ t, Host.Core.run Sys2Proof.core k s = .next t ∧ t.busy = false ∧ t.done = true

section
variable {s : State}

theorem completionDue_of_latency_zero (busy : s.busy = true) (h : s.latency = 0) : completionDue s = true := by
  simp [completionDue, busy, h]

theorem completionDue_of_no_event (busy : s.busy = true) (none : s.program = []) : completionDue s = true := by
  simp [completionDue, busy, none]

theorem completionDue_of_waiting {e : HostEvent} {rest : List HostEvent} (h : s.latency ≠ 0)
    (next : s.program = e :: rest) : completionDue s = false := by
  simp [completionDue, h, next]

/-- A completion leaves the host's program as it is (log 5). -/
theorem exec_program {i : Instr} {t : State} (h : exec i s = .next t) : t.program = s.program := by
  have hsame := h.symm.trans (exec_hostSide h s.rej s.latency s.program)
  injection hsame with ht
  exact (congrArg State.program ht).trans rfl

/-- A step whose completion is due leaves the machine idle with the command done, and the host's program as it is. -/
theorem step_completes (due : completionDue s = true) :
    ∃ t, step s = .next t ∧ t.busy = false ∧ t.done = true ∧ t.program = s.program := by
  obtain ⟨t, h, idle, done, -⟩ := everyCommandCompletesKeepingInputs (decodeByte s.cmd) s
  exact ⟨t, (step_of_due due).trans h, idle, done, exec_program h⟩

/-- An idle machine without host events waits for as long as it is run (R182). -/
theorem core_run_waiting (idle : s.busy = false) (none : s.program = []) (k : Nat) :
    Host.Core.run Sys2Proof.core k s = .next s := by
  induction k with
  | zero => exact core_run_zero s
  | succ k ih => rw [core_run_succ (step_of_no_event (completionDue_of_idle idle) none), ih]

/-- A harmless event keeps a pending command pending; a WAIT goes back on the program (R57, R78). -/
theorem hostEvent_of_harmless {e : HostEvent} (busy : s.busy = true) (h : harmless e = true) :
    ∃ t, hostEvent e s = .next t ∧ t.busy = true ∧ t.latency = s.latency ∧
      (t.program = s.program ∨ t.program = e :: s.program) := by
  cases e with
  | bus x size =>
    obtain rfl : size = 1 := by simpa [harmless] using h
    refine ⟨hostTxn x s, hostEvent_bus_one x s, ?_⟩
    cases x with
    | read a => exact ⟨busy, rfl, .inl rfl⟩
    | write a v =>
      rw [hostTxn, hostWrite_of_busy busy]
      exact ⟨busy, rfl, .inl rfl⟩
  | wait => exact ⟨_, hostEvent_wait s, busy, rfl, .inr (if_pos busy)⟩
  | reset => cases h

/-- A harmless event taken while a command is pending uses up one host step, and what the host does in the remaining
ones is part of what it was to do (R190, log 4). -/
theorem step_of_harmless {n : Nat} {e : HostEvent} {rest : List HostEvent} (busy : s.busy = true)
    (hlat : s.latency = n + 1) (next : s.program = e :: rest) (h : harmless e = true) :
    ∃ t, step s = .next t ∧ t.busy = true ∧ t.latency = n ∧ t.program.take n ⊆ s.program.take (n + 1) := by
  obtain ⟨t, ht, hbusy, htlat, hprog⟩ := hostEvent_of_harmless (s := hostReady rest s) busy h
  have hnotDue : completionDue s = false := completionDue_of_waiting (by omega) next
  have hready : (hostReady rest s).latency = n := by simp [hostReady, busy, hlat]
  refine ⟨t, (step_of_event hnotDue next).trans ht, hbusy, htlat.trans hready, ?_⟩
  rw [next]
  rcases hprog with hprog | hprog <;> rw [hprog]
  · exact List.subset_cons_self e _
  · exact (List.take_prefix_take_left (Nat.le_succ n)).subset

end

/-- By induction on the host steps drawn: with none left, or no event left, the completion is next; otherwise the next
event uses one up. -/
theorem completedAfter_of_harmless (n : Nat) : ∀ s : State, s.busy = true → s.latency = n →
    (∀ e ∈ s.program.take n, harmless e = true) → CompletedAfter (n + 1) s := by
  induction n with
  | zero =>
    intro s busy hlat _
    obtain ⟨t, h, idle, done, -⟩ := step_completes (completionDue_of_latency_zero busy hlat)
    exact ⟨t, core_run_succ h 0, idle, done⟩
  | succ n ih =>
    intro s busy hlat hharmless
    cases hprog : s.program with
    | nil =>
      obtain ⟨t, h, idle, done, htprog⟩ := step_completes (completionDue_of_no_event busy hprog)
      exact ⟨t, (core_run_succ h _).trans (core_run_waiting idle (htprog.trans hprog) _), idle, done⟩
    | cons e rest =>
      have he : harmless e = true := hharmless e (by simp [hprog])
      obtain ⟨t, h, tbusy, tlat, hsub⟩ := step_of_harmless busy hlat hprog he
      obtain ⟨u, hrun, hdone⟩ := ih t tbusy tlat fun d hd => hharmless d (hsub hd)
      exact ⟨u, (core_run_succ h _).trans hrun, hdone⟩

/-- Settles O41: the count of the induction is the one drawn. -/
theorem pendingCommandCompletes : Obligations.PendingCommandCompletes :=
  fun s busy hharmless => completedAfter_of_harmless s.latency s busy rfl hharmless

end Sys2Proof.Machine

/-! ### The cipher (R112 to R119): ENCODE and DECODE XOR each input byte with a mask that keeps the key -/

namespace Sys2Proof.Machine

/-! The checks of R112, in their order -/

theorem keyIndex_inCell_zero (s : State) : keyIndex (inCell s 0) = inputKey s := keyIndex_eq_div _

theorem CipherReady.pos {s : State} (ready : CipherReady s) : 1 ≤ s.len.toNat := ready.1

theorem checkCipher_lenRange {maxBytes n : Nat} (b : Byte) (h : maxBytes < n) :
    checkCipher maxBytes n b = .error .lenRange := if_neg (by omega)

theorem checkCipher_empty (maxBytes : Nat) (b : Byte) : checkCipher maxBytes 0 b = .error .empty := rfl

theorem checkCipher_keyRange {maxBytes n : Nat} {b : Byte} (hpos : 1 ≤ n) (hlen : n ≤ maxBytes)
    (hkey : 11 < keyIndex b) : checkCipher maxBytes n b = .error .keyRange := by
  rw [checkCipher, if_pos hlen, if_neg (by omega), if_pos hkey]

theorem checkCipher_tableOverrun {maxBytes n : Nat} {b : Byte} (hpos : 1 ≤ n) (hlen : n ≤ maxBytes)
    (hkey : keyIndex b ≤ 11) (hover : 48 < 4 * keyIndex b + n) :
    checkCipher maxBytes n b = .error .tableOverrun := by
  rw [checkCipher, if_pos hlen, if_neg (by omega), if_neg (by omega), if_pos hover]

theorem checkCipher_of_ready {s : State} (ready : CipherReady s) :
    checkCipher s.maxBytes s.len.toNat (inCell s 0) = .ok () := by
  obtain ⟨hpos, hlen, hkey, hfits⟩ := ready
  exact checkCipher_ok_iff.mpr ⟨hlen, hpos, by rwa [keyIndex_inCell_zero], by rwa [keyIndex_inCell_zero]⟩

/-! What the two commands leave -/

/-- DECODE executes as ENCODE does (R114). -/
theorem exec_cipher {i : Instr} (cipher : i = .encode ∨ i = .decode) (s : State) :
    exec i s = complete (executeEncode s) s := by
  rcases cipher with rfl | rfl <;> rfl

/-- No error has the code 0, so the completion that reports it sets ERR (R93, R160, R163). -/
theorem failsWith_of_error {i : Instr} {s : State} {e : ContractError} (h : exec i s = complete (.error e) s) :
    FailsWith i s e.code :=
  ⟨finish e.code s, h, by cases e <;> rfl⟩

theorem failsWith_of_checkCipher {i : Instr} {s : State} {e : ContractError} (cipher : i = .encode ∨ i = .decode)
    (h : checkCipher s.maxBytes s.len.toNat (inCell s 0) = .error e) : FailsWith i s e.code :=
  failsWith_of_error (by simp only [exec_cipher cipher, executeEncode, h])

/-- The state that a successful ENCODE or DECODE leaves (R113). -/
def ciphered (s : State) : State := finish 0 (writeOutput (transform (inputBytes s)) s)

theorem exec_cipher_of_ready {i : Instr} {s : State} (cipher : i = .encode ∨ i = .decode) (ready : CipherReady s) :
    exec i s = .next (ciphered s) := by
  simp only [exec_cipher cipher, executeEncode, checkCipher_of_ready ready, complete_ok, ciphered]

theorem eq_ciphered_of_exec {i : Instr} {s t : State} (cipher : i = .encode ∨ i = .decode) (ready : CipherReady s)
    (h : exec i s = .next t) : t = ciphered s :=
  Host.Outcome.next.inj (h.symm.trans (exec_cipher_of_ready cipher ready))

@[simp] theorem ciphered_outlen (s : State) : (ciphered s).outlen = s.len := by
  simp [ciphered]

theorem doneOk_ciphered (s : State) : DoneOk (ciphered s) := doneOk_finish_zero _

theorem onlyOutputChanged_ciphered (s : State) : OnlyOutputChanged s (ciphered s) := rfl

theorem memoryKeptOutside_ciphered (s : State) : MemoryKeptOutside outBase s.len.toNat s (ciphered s) :=
  fun _ outside => Memory.read_writeBlock_outside (by simpa using outside)

theorem outCell_ciphered {s : State} {j : Nat} (hj : j < s.len.toNat) :
    outCell (ciphered s) j = (transform (inputBytes s)).getD j 0 :=
  Memory.read_writeBlock_inside (by simpa using hj)

/-- Shifting the low bits out and back in leaves the multiple of 8 that the key stands for (R116). -/
theorem ushiftRight_shiftLeft_three (b : Byte) : (b >>> 3) <<< 3 = BitVec.ofNat 8 (8 * (b.toNat / 8)) := by
  apply BitVec.eq_of_toNat_eq
  simp [Nat.shiftRight_eq_div_pow, Nat.shiftLeft_eq, Nat.mul_comm]

/-- The transform of an input that passes the checks, byte by byte (R113, R116). -/
theorem cipherResult_ciphered {s : State} (hpos : 1 ≤ s.len.toNat) : CipherResult s (ciphered s) := by
  refine ⟨?_, fun j hj hlt => ?_⟩
  · rw [outCell_ciphered hpos, getD_transform_zero (by rwa [length_inputBytes]), getD_inputBytes hpos,
      keyIndex_inCell_zero, ushiftRight_shiftLeft_three, BitVec.or_comm]
    rfl
  · rw [outCell_ciphered hlt, getD_transform_pos hj (by rwa [length_inputBytes]), getD_inputBytes hlt,
      getD_inputBytes hpos, keyIndex_inCell_zero]

/-- Both commands, on every state (R112, R113, R114). -/
theorem cipherExecutes {i : Instr} (cipher : i = .encode ∨ i = .decode) (s : State) : CipherExecutes i s := by
  refine ⟨fun hlen => ?_, fun hempty => ?_, fun hpos hlen hkey => ?_, fun hpos hlen hkey hover => ?_, fun ready => ?_⟩
  · exact failsWith_of_checkCipher cipher (checkCipher_lenRange _ hlen)
  · exact failsWith_of_checkCipher cipher (hempty ▸ checkCipher_empty _ _)
  · rw [← keyIndex_inCell_zero] at hkey
    exact failsWith_of_checkCipher cipher (checkCipher_keyRange hpos hlen hkey)
  · rw [← keyIndex_inCell_zero] at hkey hover
    exact failsWith_of_checkCipher cipher (checkCipher_tableOverrun hpos hlen hkey hover)
  · exact ⟨ciphered s, exec_cipher_of_ready cipher ready, cipherResult_ciphered ready.pos, ciphered_outlen s,
      memoryKeptOutside_ciphered s, doneOk_ciphered s, onlyOutputChanged_ciphered s⟩

/-- Settles O22: the two commands share their execution. -/
theorem encodeChecksThenTransforms : Obligations.EncodeChecksThenTransforms := ⟨rfl, cipherExecutes (.inl rfl)⟩

/-- Settles O23: the two commands share their execution. -/
theorem decodeChecksThenTransforms : Obligations.DecodeChecksThenTransforms := ⟨rfl, cipherExecutes (.inr rfl)⟩

/-! The transform as an XOR with a mask -/

/-- What byte `j` of the input is XORed with for the key `k`: the table entry, of which byte 0 takes the low 3 bits
only (R113, R116). -/
def cipherMask (k : Nat) : Nat → Byte
  | 0 => romAt (4 * k) &&& 0x07
  | j + 1 => romAt (4 * k + (j + 1))

/-- The byte-0 fixup puts back bits 7:3, so only the low 3 bits of the table entry count (R116). -/
theorem key_or_lowXor_eq_xor (b r : Byte) :
    BitVec.ofNat 8 (8 * (b.toNat / 8)) ||| ((b ^^^ r) &&& 0x07) = b ^^^ (r &&& 0x07) := by
  rw [← ushiftRight_shiftLeft_three]
  ext i hi
  interval_cases i <;> simp

theorem outCell_eq_xor_cipherMask {s t : State} (h : CipherResult s t) {j : Nat} (hj : j < s.len.toNat) :
    outCell t j = inCell s j ^^^ cipherMask (inputKey s) j := by
  obtain ⟨hzero, hlater⟩ := h
  cases j with
  | zero => exact hzero.trans (key_or_lowXor_eq_xor _ _)
  | succ j => exact hlater (j + 1) (by omega) hj

/-- XORing the low `n` bits keeps the bits above them. -/
theorem xor_ushiftRight_of_lt {m : Byte} {n : Nat} (hm : m.toNat < 2 ^ n) (b : Byte) :
    (b ^^^ m) >>> n = b >>> n := by
  have hzero : m >>> n = 0 := by
    apply BitVec.eq_of_toNat_eq
    simp [Nat.shiftRight_eq_div_pow, Nat.div_eq_of_lt hm]
  rw [BitVec.ushiftRight_xor_distrib, hzero]
  exact BitVec.xor_zero

theorem toNat_div_two_pow_of_ushiftRight_eq {b c : Byte} {n : Nat} (h : b >>> n = c >>> n) :
    b.toNat / 2 ^ n = c.toNat / 2 ^ n := by
  simpa [Nat.shiftRight_eq_div_pow] using congrArg BitVec.toNat h

/-- A table entry has 6 bits (R23). -/
theorem toNat_lt_of_mem_rom : ∀ b ∈ rom, b.toNat < 64 := by
  have hall : rom.all (fun b => b.toNat < 64) = true := by decide
  simpa only [List.all_eq_true, decide_eq_true_eq] using hall

theorem toNat_romAt_lt (j : Nat) : (romAt j).toNat < 64 := by
  rcases Nat.lt_or_ge j rom.length with hj | hj
  · rw [romAt_eq_getElem hj]
    exact toNat_lt_of_mem_rom _ (List.getElem_mem hj)
  · rw [romAt, List.getD_eq_default _ _ hj]
    decide

theorem toNat_cipherMask_zero_lt (k : Nat) : (cipherMask k 0).toNat < 8 := by
  rw [cipherMask, BitVec.toNat_and]
  exact Nat.and_lt_two_pow _ (n := 3) (by decide)

/-- Byte 0 of the output holds the key of the input (R118). -/
theorem outCell_zero_ushiftRight {s t : State} (hpos : 1 ≤ s.len.toNat) (h : CipherResult s t) :
    outCell t 0 >>> 3 = inCell s 0 >>> 3 := by
  rw [outCell_eq_xor_cipherMask h hpos]
  exact xor_ushiftRight_of_lt (toNat_cipherMask_zero_lt _) _

/-- A later byte of the output holds bits 7:6 of its input byte (R119). -/
theorem outCell_ushiftRight_six {s t : State} (h : CipherResult s t) {j : Nat} (hj : 1 ≤ j) (hlt : j < s.len.toNat) :
    outCell t j >>> 6 = inCell s j >>> 6 := by
  obtain ⟨-, hlater⟩ := h
  rw [hlater j hj hlt]
  exact xor_ushiftRight_of_lt (toNat_romAt_lt _) _

/-- The key of the output is the key of the input (R118), as a number. -/
theorem outCell_zero_div_eight {s t : State} (hpos : 1 ≤ s.len.toNat) (h : CipherResult s t) :
    (outCell t 0).toNat / 8 = inputKey s :=
  toNat_div_two_pow_of_ushiftRight_eq (outCell_zero_ushiftRight hpos h)

/-- Settles O28: the mask of byte 0 lies below bit 3. -/
theorem cipherKeepsKey : Obligations.CipherKeepsKey := by
  intro i s t cipher ready h
  rw [eq_ciphered_of_exec cipher ready h]
  exact outCell_zero_ushiftRight ready.pos (cipherResult_ciphered ready.pos)

/-! The output as an input (R117, R119) -/

section
variable {s u : State}

theorem len_of_inputIsOutput (copy : InputIsOutputOf (ciphered s) u) : u.len = s.len := by
  obtain ⟨-, hlen, -⟩ := copy
  exact hlen.trans (ciphered_outlen s)

theorem maxBytes_of_inputIsOutput (copy : InputIsOutputOf (ciphered s) u) : u.maxBytes = s.maxBytes := by
  obtain ⟨hsize, -⟩ := copy
  rw [State.maxBytes, hsize]
  rfl

theorem inCell_of_inputIsOutput (copy : InputIsOutputOf (ciphered s) u) {j : Nat} (hj : j < s.len.toNat) :
    inCell u j = outCell (ciphered s) j := by
  obtain ⟨-, -, hbytes⟩ := copy
  exact hbytes j (by rwa [ciphered_outlen])

theorem inputKey_of_inputIsOutput (ready : CipherReady s) (copy : InputIsOutputOf (ciphered s) u) :
    inputKey u = inputKey s := by
  rw [inputKey, inCell_of_inputIsOutput copy ready.pos]
  exact outCell_zero_div_eight ready.pos (cipherResult_ciphered ready.pos)

/-- The output passes the checks of R112 as the input did. -/
theorem cipherReady_of_inputIsOutput (ready : CipherReady s) (copy : InputIsOutputOf (ciphered s) u) :
    CipherReady u := by
  rwa [CipherReady, inputKey_of_inputIsOutput ready copy, len_of_inputIsOutput copy, maxBytes_of_inputIsOutput copy]

/-- The second transform XORs each byte with the mask of the first (R117). -/
theorem outCell_ciphered_of_inputIsOutput (ready : CipherReady s) (copy : InputIsOutputOf (ciphered s) u) {j : Nat}
    (hj : j < s.len.toNat) : outCell (ciphered u) j = inCell s j := by
  have hlen := len_of_inputIsOutput copy
  calc outCell (ciphered u) j
      = inCell u j ^^^ cipherMask (inputKey u) j :=
        outCell_eq_xor_cipherMask (cipherResult_ciphered (hlen ▸ ready.pos)) (hlen ▸ hj)
    _ = outCell (ciphered s) j ^^^ cipherMask (inputKey s) j := by
        rw [inCell_of_inputIsOutput copy hj, inputKey_of_inputIsOutput ready copy]
    _ = inCell s j ^^^ cipherMask (inputKey s) j ^^^ cipherMask (inputKey s) j := by
        rw [outCell_eq_xor_cipherMask (cipherResult_ciphered ready.pos) hj]
    _ = inCell s j := by rw [BitVec.xor_assoc, BitVec.xor_self]; exact BitVec.xor_zero

end

/-- Settles O27: the output passes the checks with the same key, so that the same masks are XORed twice. -/
theorem encodeAndDecodeUndoEachOther : Obligations.EncodeAndDecodeUndoEachOther := by
  intro i j s commands ready
  have first : i = .encode ∨ i = .decode := commands.imp And.left And.left
  have second : j = .encode ∨ j = .decode := (commands.imp And.right And.right).symm
  refine ⟨ciphered s, exec_cipher_of_ready first ready, doneOk_ciphered s, ciphered_outlen s, fun u copy => ?_⟩
  exact ⟨ciphered u, exec_cipher_of_ready second (cipherReady_of_inputIsOutput ready copy), doneOk_ciphered u,
    (ciphered_outlen u).trans (len_of_inputIsOutput copy), fun _ => outCell_ciphered_of_inputIsOutput ready copy⟩

/-- PACK of an input that fits and has a value of 64 or more reports VALUE_RANGE (R141). -/
theorem failsWith_pack_of_value {s : State} {j : Nat} (hlen : s.len.toNat ≤ s.maxBytes) (hj : j < s.len.toNat)
    (hvalue : 64 ≤ (inCell s j).toNat) : FailsWith .pack s 6 := by
  have hmem : inCell s j ∈ inputBytes s := Memory.mem_readBlock.mpr ⟨j, hj, rfl⟩
  have hall : ¬ (inputBytes s).all (fun b => b.toNat < 64) = true := fun h =>
    absurd (List.all_eq_true.mp h _ hmem) (by simpa using hvalue)
  exact failsWith_of_error (e := .valueRange)
    (by simp only [exec, execPack, executePack, checkLen_le hlen, if_neg hall, complete_error])

/-- Settles O29: a table entry is below 64, and byte 0 of the output is 8 times the key and less than 8 more. -/
theorem cipherOutputRange : Obligations.CipherOutputRange := by
  refine ⟨toNat_lt_of_mem_rom, fun i s t cipher ready h => ?_⟩
  obtain rfl := eq_ciphered_of_exec cipher ready h
  have result := cipherResult_ciphered ready.pos
  have hfirst := outCell_zero_div_eight ready.pos result
  have ⟨hpos, _, hkey, _⟩ := ready
  refine ⟨fun j hj hlt => ?_, by omega, fun hlarge => ⟨by omega, by omega, fun u copy => ?_⟩⟩
  · have hbits := outCell_ushiftRight_six result hj hlt
    have hquotient := toNat_div_two_pow_of_ushiftRight_eq hbits
    exact ⟨hbits, by omega⟩
  · obtain ⟨hposu, hlenu, -⟩ := cipherReady_of_inputIsOutput ready copy
    refine failsWith_pack_of_value hlenu hposu ?_
    rw [inCell_of_inputIsOutput copy hpos]
    omega

end Sys2Proof.Machine

/-! ### The checksum (R130, R131): CSUM is the low 4 bits of the sum of the input -/

namespace Sys2Proof.Machine

/-- The accumulator starts at 0, so that it ends as the exact sum modulo 256 (R130). -/
theorem toNat_byteSum (bytes : List Byte) : (byteSum bytes).toNat = (bytes.map BitVec.toNat).sum % 256 := by
  rw [byteSum, toNat_foldl_add, BitVec.ofNat_eq_ofNat, BitVec.toNat_zero, Nat.zero_add]

theorem toNat_checksumNibble (bytes : List Byte) :
    (checksumNibble bytes).toNat = (bytes.map BitVec.toNat).sum % 256 % 16 := by
  rw [checksumNibble, BitVec.toNat_setWidth, toNat_byteSum]

/-- Settles O30: 16 divides 256, so the wrap of the accumulator does not change the low 4 bits. -/
theorem checksumIsSumModSixteen : Obligations.ChecksumIsSumModSixteen := fun bytes =>
  ⟨toNat_checksumNibble bytes, (toNat_checksumNibble bytes).trans (Nat.mod_mod_of_dvd _ (by decide))⟩

/-- The bytes that CHECKSUM sums are the cells `IN[0 .. LEN-1]`, in order (R134). -/
theorem map_toNat_inputBytes (s : State) :
    (inputBytes s).map BitVec.toNat = (List.range s.len.toNat).map (fun j => (inCell s j).toNat) :=
  List.map_map

/-- CHECKSUM of an input that does not fit reports LEN_RANGE (R95, R131). -/
theorem exec_checksum_of_gt {s : State} (h : s.maxBytes < s.len.toNat) :
    exec .checksum s = complete (.error .lenRange) s := by
  simp only [exec, execChecksum, executeChecksum, checkLen_gt h]

/-- CHECKSUM of an input that fits succeeds and writes CSUM alone (R131). -/
theorem exec_checksum_of_le {s : State} (h : s.len.toNat ≤ s.maxBytes) :
    exec .checksum s = .next (finish 0 { s with csum := checksumNibble (inputBytes s) }) := by
  simp only [exec, execChecksum, executeChecksum, checkLen_le h, complete_ok]

/-- Settles O24: the length check decides, and the nibble written is that of the input cells (O30). -/
theorem checksumSumsInput : Obligations.ChecksumSumsInput := by
  refine ⟨rfl, fun s => ⟨fun hgt => ?_, fun hle => ?_⟩⟩
  · exact failsWith_of_error (e := .lenRange) (exec_checksum_of_gt hgt)
  · refine ⟨_, exec_checksum_of_le hle, doneOk_finish_zero _, ?_, rfl⟩
    rw [← map_toNat_inputBytes]
    exact toNat_checksumNibble (inputBytes s)

end Sys2Proof.Machine

/-! ### The bit packer (R140 to R147): PACK writes the groups of the input, UNPACK the values of the full groups -/

namespace Sys2Proof.Machine

/-! Symbols and groups (R28, R140, R142) -/

theorem isSymbol_iff {b : Byte} : isSymbol b = true ↔ b = 0x30 ∨ b = 0x31 := by
  simp [isSymbol]

/-- A symbol is the symbol of its own bit (R142). -/
theorem symbolOf_beq_one {b : Byte} (h : isSymbol b = true) : symbolOf (b == 0x31) = b := by
  rcases isSymbol_iff.mp h with rfl | rfl <;> rfl

/-- Symbol `t` of a group is that of bit `5 - t` (R140). -/
theorem getD_groupOf (v : Byte) {t : Nat} (ht : t < 6) : (groupOf v).getD t 0 = symbolOf (v.getLsbD (5 - t)) := by
  interval_cases t <;> rfl

/-- The value of six bits, the first the most significant (R142). -/
def bitsValue (b0 b1 b2 b3 b4 b5 : Bool) : Byte :=
  (0#2 ++ BitVec.ofBool b0 ++ BitVec.ofBool b1 ++ BitVec.ofBool b2 ++ BitVec.ofBool b3 ++ BitVec.ofBool b4 ++
    BitVec.ofBool b5 : BitVec 8)

theorem groupValue_eq_bitsValue (s0 s1 s2 s3 s4 s5 : Byte) : groupValue s0 s1 s2 s3 s4 s5 =
    bitsValue (s0 == 0x31) (s1 == 0x31) (s2 == 0x31) (s3 == 0x31) (s4 == 0x31) (s5 == 0x31) := rfl

theorem groupOf_bitsValue : ∀ b0 b1 b2 b3 b4 b5 : Bool,
    groupOf (bitsValue b0 b1 b2 b3 b4 b5) = [b0, b1, b2, b3, b4, b5].map symbolOf := by decide

theorem toNat_bitsValue : ∀ b0 b1 b2 b3 b4 b5 : Bool, (bitsValue b0 b1 b2 b3 b4 b5).toNat =
    2 ^ 5 * b0.toNat + 2 ^ 4 * b1.toNat + 2 ^ 3 * b2.toNat + 2 ^ 2 * b3.toNat + 2 ^ 1 * b4.toNat + 2 ^ 0 * b5.toNat := by
  decide

theorem toNat_bitsValue_lt : ∀ b0 b1 b2 b3 b4 b5 : Bool, (bitsValue b0 b1 b2 b3 b4 b5).toNat < 64 := by decide

/-- `group(value(s)) = s` for every six symbols (R142). -/
theorem groupOf_groupValue {s0 s1 s2 s3 s4 s5 : Byte} (h : [s0, s1, s2, s3, s4, s5].all isSymbol = true) :
    groupOf (groupValue s0 s1 s2 s3 s4 s5) = [s0, s1, s2, s3, s4, s5] := by
  simp only [List.all_cons, List.all_nil, Bool.and_eq_true] at h
  obtain ⟨h0, h1, h2, h3, h4, h5, -⟩ := h
  simp only [groupValue_eq_bitsValue, groupOf_bitsValue, List.map_cons, List.map_nil, symbolOf_beq_one, h0, h1, h2, h3,
    h4, h5]

/-- A group's value as a sum of powers of 2, the first symbol the most significant (R142). -/
theorem toNat_groupValue_eq_sum (f : Nat → Byte) : (groupValue (f 0) (f 1) (f 2) (f 3) (f 4) (f 5)).toNat =
    ((List.range 6).map (fun b => if f b = 0x31 then 2 ^ (5 - b) else 0)).sum := by
  have term : ∀ b, (if f b = 0x31 then 2 ^ (5 - b) else 0) = 2 ^ (5 - b) * (f b == 0x31).toNat := fun b => by
    rcases eq_or_ne (f b) 0x31 with h | h
    · rw [if_pos h, beq_iff_eq.mpr h, Bool.toNat_true, Nat.mul_one]
    · rw [if_neg h, beq_eq_false_iff_ne.mpr h, Bool.toNat_false, Nat.mul_zero]
  simp only [term, groupValue_eq_bitsValue, toNat_bitsValue]
  simp [List.range_succ, add_assoc]

/-! Strings (R141, R143) -/

theorem all_isSymbol_packBits (bytes : List Byte) : (packBits bytes).all isSymbol = true := by
  induction bytes with
  | nil => rfl
  | cons b bytes ih =>
    rw [packBits, List.flatMap_cons, List.all_append, groupOf_isSymbol, Bool.true_and]
    exact ih

/-- UNPACK gives values of 6 bits (R142). -/
theorem toNat_lt_of_mem_unpackBits (bits : List Byte) : ∀ b ∈ unpackBits bits, b.toNat < 64 := by
  induction bits using unpackBits.induct with
  | case1 s0 s1 s2 s3 s4 s5 rest ih =>
    simp only [unpackBits, List.forall_mem_cons]
    exact ⟨toNat_bitsValue_lt .., ih⟩
  | case2 bits h =>
    rw [unpackBits]
    · exact List.forall_mem_nil _
    · exact h

/-- PACK rebuilds a string of whole groups from the values of its groups (R146). -/
theorem packBits_unpackBits {bits : List Byte} (whole : bits.length % 6 = 0) (symbols : bits.all isSymbol = true) :
    packBits (unpackBits bits) = bits := by
  induction bits using unpackBits.induct with
  | case1 s0 s1 s2 s3 s4 s5 rest ih =>
    change ([s0, s1, s2, s3, s4, s5] ++ rest).all isSymbol = true at symbols
    rw [List.all_append, Bool.and_eq_true] at symbols
    obtain ⟨hgroup, hrest⟩ := symbols
    have tail := ih (by simp only [List.length_cons] at whole; omega) hrest
    rw [unpackBits, packBits, List.flatMap_cons, groupOf_groupValue hgroup]
    exact congrArg ([s0, s1, s2, s3, s4, s5] ++ ·) tail
  | case2 bits h =>
    have short := length_lt_of_no_group h
    obtain rfl : bits = [] := List.length_eq_zero_iff.mp (by omega)
    rfl

/-! PACK (R141) -/

/-- What PACK checks are the cells `IN[0 .. LEN-1]` (R75). -/
theorem forall_mem_inputBytes {s : State} {p : Byte → Prop} :
    (∀ b ∈ inputBytes s, p b) ↔ ∀ j, j < s.len.toNat → p (inCell s j) := by
  simp [inputBytes, Memory.readBlock, inCell]

/-- PACK of an input that does not fit reports LEN_RANGE (R95, R141). -/
theorem exec_pack_of_gt {s : State} (h : s.maxBytes < s.len.toNat) :
    exec .pack s = complete (.error .lenRange) s := by
  simp only [exec, execPack, executePack, checkLen_gt h]

/-- The state that a successful PACK leaves (R141). -/
def packed (s : State) : State := finish 0 (writeBits (packBits (inputBytes s)) s)

theorem exec_pack {s : State} (hlen : s.len.toNat ≤ s.maxBytes)
    (values : ∀ j, j < s.len.toNat → (inCell s j).toNat < 64) : exec .pack s = .next (packed s) :=
  exec_pack_of_values hlen (forall_mem_inputBytes.mpr values)

theorem doneOk_packed (s : State) : DoneOk (packed s) := doneOk_finish_zero _

/-- Six symbols for each of at most 255 bytes are counted in 11 bits (R35). -/
theorem packed_bslen_toNat (s : State) : (packed s).bslen.toNat = 6 * s.len.toNat := by
  have := s.len.isLt
  simp only [packed, finish_bslen, writeBits_bslen, length_packBits, length_inputBytes, BitVec.toNat_ofNat]
  omega

theorem bsCell_packed {s : State} {i : Nat} (hi : i < 6 * s.len.toNat) :
    bsCell (packed s) i = (packBits (inputBytes s)).getD i 0 :=
  Memory.read_writeBlock_inside (by simpa using hi)

/-- Symbol `6j + t` is that of bit `5 - t` of input byte `j` (R140, R141). -/
theorem bsCell_packed_group {s : State} {j t : Nat} (hj : j < s.len.toNat) (ht : t < 6) :
    bsCell (packed s) (6 * j + t) = symbolOf ((inCell s j).getLsbD (5 - t)) := by
  rw [bsCell_packed (by omega), getD_packBits (by simpa using hj) ht, getD_inputBytes hj, getD_groupOf _ ht]

theorem memoryKeptOutside_packed (s : State) : MemoryKeptOutside bsBase (6 * s.len.toNat) s (packed s) :=
  fun _ outside => Memory.read_writeBlock_outside (by simpa using outside)

/-- Settles O25: the two checks in their order, and the block of groups that a successful PACK writes. -/
theorem packChecksThenWritesGroups : Obligations.PackChecksThenWritesGroups := by
  refine ⟨rfl, fun s => ⟨fun hgt => ?_, fun hle bad => ?_, fun hle values => ?_⟩⟩
  · exact failsWith_of_error (e := .lenRange) (exec_pack_of_gt hgt)
  · obtain ⟨j, hj, hvalue⟩ := bad
    exact failsWith_pack_of_value hle hj hvalue
  · exact ⟨packed s, exec_pack hle values, doneOk_packed s, packed_bslen_toNat s,
      fun _ _ hj ht => bsCell_packed_group hj ht, memoryKeptOutside_packed s, rfl⟩

/-! UNPACK (R143) -/

/-- UNPACK looks at the symbols of full groups only (R144). -/
theorem all_isSymbol_fullGroups_iff {s : State} :
    (fullGroups s).all isSymbol = true ↔ SymbolsBelow s (6 * (s.bslen.toNat / 6)) := by
  simp [fullGroups, Memory.readBlock, SymbolsBelow, isSymbol_iff, bsCell]

/-- UNPACK of a string that does not fit reports LEN_RANGE (R143). -/
theorem exec_unpack_of_gt {s : State} (h : 6 * s.maxBytes < s.bslen.toNat) :
    exec .unpack s = complete (.error .lenRange) s := by
  rw [exec, execUnpack, executeUnpack, if_neg (Nat.not_le.mpr h)]

/-- UNPACK of a string with a bad symbol in a full group reports BAD_SYMBOL (R143, R144). -/
theorem exec_unpack_of_badSymbol {s : State} (hlen : s.bslen.toNat ≤ 6 * s.maxBytes)
    (bad : ¬ SymbolsBelow s (6 * (s.bslen.toNat / 6))) : exec .unpack s = complete (.error .badSymbol) s := by
  rw [exec, execUnpack, executeUnpack, if_pos hlen, if_neg (mt all_isSymbol_fullGroups_iff.mp bad)]

/-- The state that a successful UNPACK leaves (R143). -/
def unpacked (s : State) : State := finish 0 (writeOutput (unpackBits (fullGroups s)) s)

theorem exec_unpack {s : State} (hlen : s.bslen.toNat ≤ 6 * s.maxBytes)
    (symbols : SymbolsBelow s (6 * (s.bslen.toNat / 6))) : exec .unpack s = .next (unpacked s) := by
  rw [exec, execUnpack, executeUnpack, if_pos hlen, if_pos (all_isSymbol_fullGroups_iff.mpr symbols), complete_ok,
    unpacked]

theorem doneOk_unpacked (s : State) : DoneOk (unpacked s) := doneOk_finish_zero _

/-- One output byte for each full group (R147). -/
theorem length_unpackBits_fullGroups (s : State) : (unpackBits (fullGroups s)).length = s.bslen.toNat / 6 := by
  rw [length_unpackBits, length_fullGroups]
  omega

/-- The bytes of a string that fits are counted in 8 bits (R34). -/
theorem unpacked_outlen_toNat {s : State} (hlen : s.bslen.toNat ≤ 6 * s.maxBytes) :
    (unpacked s).outlen.toNat = s.bslen.toNat / 6 := by
  have := s.maxBytes_bounds
  simp only [unpacked, finish_outlen, writeOutput_outlen, length_unpackBits_fullGroups, BitVec.toNat_ofNat]
  omega

theorem outCell_unpacked {s : State} {j : Nat} (hj : j < s.bslen.toNat / 6) :
    outCell (unpacked s) j = (unpackBits (fullGroups s)).getD j 0 :=
  Memory.read_writeBlock_inside (by rwa [length_unpackBits_fullGroups])

/-- Output byte `j` is the value of symbols `6j` to `6j + 5` (R143). -/
theorem toNat_outCell_unpacked {s : State} {j : Nat} (hj : j < s.bslen.toNat / 6) : (outCell (unpacked s) j).toNat =
    ((List.range 6).map (fun b => if bsCell s (6 * j + b) = 0x31 then 2 ^ (5 - b) else 0)).sum := by
  have cell : ∀ b ∈ List.range 6, (fullGroups s).getD (6 * j + b) 0 = bsCell s (6 * j + b) := fun b hb =>
    getD_fullGroups (by have := List.mem_range.mp hb; omega)
  rw [outCell_unpacked hj, getD_unpackBits (by rw [length_fullGroups]; omega)]
  refine (toNat_groupValue_eq_sum fun b => (fullGroups s).getD (6 * j + b) 0).trans (congrArg List.sum ?_)
  exact List.map_congr_left fun b hb => by rw [cell b hb]

theorem memoryKeptOutside_unpacked (s : State) : MemoryKeptOutside outBase (s.bslen.toNat / 6) s (unpacked s) :=
  fun _ outside => Memory.read_writeBlock_outside (by rwa [length_unpackBits_fullGroups])

theorem onlyOutputChanged_unpacked (s : State) : OnlyOutputChanged s (unpacked s) := rfl

/-- Settles O26: the two checks in their order, and the block of values that a successful UNPACK writes. -/
theorem unpackChecksThenWritesBytes : Obligations.UnpackChecksThenWritesBytes := by
  refine ⟨rfl, fun s => ⟨fun hgt => ?_, fun hle bad => ?_, fun hle symbols => ?_⟩⟩
  · exact failsWith_of_error (e := .lenRange) (exec_unpack_of_gt hgt)
  · exact failsWith_of_error (e := .badSymbol) (exec_unpack_of_badSymbol hle bad)
  · exact ⟨unpacked s, exec_unpack hle symbols, doneOk_unpacked s, unpacked_outlen_toNat hle,
      fun _ => toNat_outCell_unpacked, memoryKeptOutside_unpacked s, onlyOutputChanged_unpacked s⟩

/-! The round trips (R146) -/

/-- UNPACK of a packed input reads its groups back. -/
theorem fullGroups_packed (s : State) : fullGroups (packed s) = packBits (inputBytes s) := by
  have count : 6 * ((packed s).bslen.toNat / 6) = (packBits (inputBytes s)).length := by
    rw [packed_bslen_toNat, length_packBits, length_inputBytes]
    omega
  rw [fullGroups, count]
  exact Memory.readBlock_writeBlock_same ..

/-- UNPACK of a packed input gives the input's bytes, if they have 6 bits. -/
theorem unpackBits_fullGroups_packed {s : State} (values : ∀ j, j < s.len.toNat → (inCell s j).toNat < 64) :
    unpackBits (fullGroups (packed s)) = inputBytes s := by
  rw [fullGroups_packed, unpackBits_packBits (forall_mem_inputBytes.mpr values)]

theorem exec_unpack_packed {s : State} (hlen : s.len.toNat ≤ s.maxBytes) :
    exec .unpack (packed s) = .next (unpacked (packed s)) := by
  refine exec_unpack ?_ (all_isSymbol_fullGroups_iff.mp ?_)
  · rw [packed_bslen_toNat]
    exact Nat.mul_le_mul_left 6 hlen
  · rw [fullGroups_packed]
    exact all_isSymbol_packBits _

theorem unpacked_packed_outlen {s : State} (values : ∀ j, j < s.len.toNat → (inCell s j).toNat < 64) :
    (unpacked (packed s)).outlen = s.len := by
  rw [unpacked, unpackBits_fullGroups_packed values]
  simp

theorem outCell_unpacked_packed {s : State} (values : ∀ j, j < s.len.toNat → (inCell s j).toNat < 64) {j : Nat}
    (hj : j < s.len.toNat) : outCell (unpacked (packed s)) j = inCell s j := by
  rw [outCell_unpacked (by rw [packed_bslen_toNat]; omega), unpackBits_fullGroups_packed values, getD_inputBytes hj]

section
variable {s u : State} (hlen : s.bslen.toNat ≤ 6 * s.maxBytes) (copy : InputIsOutputOf (unpacked s) u)
include hlen copy

theorem len_of_inputIsOutput_unpacked : u.len.toNat = s.bslen.toNat / 6 := by
  obtain ⟨-, hcount, -⟩ := copy
  rw [hcount, unpacked_outlen_toNat hlen]

/-- The host's copy of UNPACK's output is the input of the next command (R189). -/
theorem inputBytes_of_inputIsOutput_unpacked : inputBytes u = unpackBits (fullGroups s) := by
  have count := len_of_inputIsOutput_unpacked hlen copy
  obtain ⟨-, hcount, hbytes⟩ := copy
  calc inputBytes u
      = Memory.readBlock (unpacked s).mem outBase u.len.toNat :=
        Memory.readBlock_congr (by rwa [hcount])
    _ = Memory.readBlock (unpacked s).mem outBase (unpackBits (fullGroups s)).length := by
        rw [count, length_unpackBits_fullGroups]
    _ = unpackBits (fullGroups s) := Memory.readBlock_writeBlock_same ..

/-- UNPACK's output fits a machine of the same size and has values of 6 bits, so PACK accepts it (R146). -/
theorem exec_pack_of_inputIsOutput_unpacked : exec .pack u = .next (packed u) := by
  refine exec_pack_of_values ?_ ?_
  · have ⟨hsize, _⟩ := copy
    have size : u.maxBytes = s.maxBytes := congrArg (·.val + 1) hsize
    rw [len_of_inputIsOutput_unpacked hlen copy, size]
    omega
  · rw [inputBytes_of_inputIsOutput_unpacked hlen copy]
    exact toNat_lt_of_mem_unpackBits _

/-- PACK of UNPACK's output writes the full groups again (R146). -/
theorem packBits_of_inputIsOutput_unpacked (symbols : SymbolsBelow s (6 * (s.bslen.toNat / 6))) :
    packBits (inputBytes u) = fullGroups s := by
  rw [inputBytes_of_inputIsOutput_unpacked hlen copy]
  exact packBits_unpackBits (by simp) (all_isSymbol_fullGroups_iff.mpr symbols)

end

/-- Settles O31: the two string functions are inverse to each other, on bytes below 64 and on strings of whole groups. -/
theorem packAndUnpackRoundTrip : Obligations.PackAndUnpackRoundTrip := by
  refine ⟨fun s hlen values => ?_, fun s hlen whole symbols => ?_⟩
  · exact ⟨packed s, unpacked (packed s), exec_pack hlen values, doneOk_packed s, packed_bslen_toNat s,
      exec_unpack_packed hlen, doneOk_unpacked _, unpacked_packed_outlen values,
      fun _ => outCell_unpacked_packed values⟩
  · have count : 6 * (s.bslen.toNat / 6) = s.bslen.toNat := by omega
    have groups : SymbolsBelow s (6 * (s.bslen.toNat / 6)) := by rwa [count]
    refine ⟨unpacked s, exec_unpack hlen groups, doneOk_unpacked s, fun u copy => ?_⟩
    have rebuilt := packBits_of_inputIsOutput_unpacked hlen copy groups
    refine ⟨packed u, exec_pack_of_inputIsOutput_unpacked hlen copy, doneOk_packed u, ?_, fun b hb => ?_⟩
    · simp [packed, rebuilt, count]
    · have := len_of_inputIsOutput_unpacked hlen copy
      rw [bsCell_packed (by omega), rebuilt, getD_fullGroups (by omega), bsCell]

end Sys2Proof.Machine

/-! ### REJ (R57, R166): set by a rejected write, cleared by the host's acknowledgement and by reset -/

namespace Sys2Proof.Machine

/-- The next step is a write of one byte while a command stays pending, which R57 rejects. -/
def RejectsWrite (s : State) : Prop :=
  completionDue s = false ∧ s.busy = true ∧ ∃ a v rest, s.program = .bus (.write a v) 1 :: rest

/-- The next step is a reset, or a write of STATUS with bit 3 set while BUSY is 0 (R166). -/
def ClearsRej (s : State) : Prop :=
  completionDue s = false ∧
    ((∃ rest, s.program = .reset :: rest) ∨
      (s.busy = false ∧ ∃ v rest, v.getLsbD 3 = true ∧ s.program = .bus (.write 0x001 v) 1 :: rest))

section
variable {s t : State}

theorem step_of_write {a : Addr} {v : Byte} {rest : List HostEvent} (notDue : completionDue s = false)
    (next : s.program = .bus (.write a v) 1 :: rest) : step s = .next (hostWrite a v (hostReady rest s)) := by
  rw [step_of_event notDue next, hostEvent_bus_one, hostTxn]

theorem step_of_write_busy {a : Addr} {v : Byte} {rest : List HostEvent} (notDue : completionDue s = false)
    (busy : s.busy = true) (next : s.program = .bus (.write a v) 1 :: rest) :
    step s = .next { hostReady rest s with rej := true } := by
  rw [step_of_write notDue next, hostWrite_of_busy (s := hostReady rest s) busy]

theorem RejectsWrite.sets (h : RejectsWrite s) (hstep : step s = .next t) : t.rej = true := by
  obtain ⟨notDue, busy, a, v, rest, next⟩ := h
  cases (step_of_write_busy notDue busy next).symm.trans hstep
  rfl

theorem locate_status (maxBytes : Nat) : locate maxBytes 0x001 = .status := rfl

theorem hostWrite_status_of_idle (idle : s.busy = false) {v : Byte} (bit : v.getLsbD 3 = true) :
    hostWrite 0x001 v s = { s with rej := false } := by
  rw [hostWrite_of_idle idle, locate_status, writeLoc, bit, Bool.not_true, Bool.and_false]

theorem ClearsRej.clears (h : ClearsRej s) (hstep : step s = .next t) : t.rej = false := by
  obtain ⟨notDue, ⟨rest, next⟩ | ⟨idle, v, rest, bit, next⟩⟩ := h
  · cases (step_of_event notDue next).symm.trans hstep
    rfl
  · rw [step_of_write notDue next, hostWrite_status_of_idle (s := hostReady rest s) idle bit] at hstep
    cases hstep
    rfl

/-- No command changes REJ. -/
theorem exec_rej {i : Instr} (h : exec i s = .next t) : t.rej = s.rej := by
  obtain ⟨code, u, hx, kept⟩ := exec_eq_finish i s
  cases hx.symm.trans h
  exact kept.rej

/-- A host write leaves REJ as it is, is rejected, or acknowledges the rejection (R57, R166). -/
theorem hostWrite_rej_cases (a : Addr) (v : Byte) (s : State) :
    (hostWrite a v s).rej = s.rej ∨ s.busy = true ∨ (s.busy = false ∧ a = statusAddr ∧ v.getLsbD 3 = true) := by
  rcases hostWrite_cases a v s with
    ⟨busy, -⟩ | ⟨idle, h | ⟨-, h⟩ | ⟨addr, bit, -⟩ | ⟨_, h⟩ | ⟨_, h⟩ | ⟨_, -, h⟩ | ⟨_, -, h⟩⟩
  · exact .inr (.inl busy)
  · exact .inl (by rw [h])
  · exact .inl (by rw [h, accept_rej])
  · exact .inr (.inr ⟨idle, addr, bit⟩)
  · exact .inl (by rw [h])
  · exact .inl (by rw [h])
  · exact .inl (by rw [h])
  · exact .inl (by rw [h])

/-- A step leaves REJ as it is, or is one of those that set or clear it. -/
theorem step_rej_cases (h : step s = .next t) : t.rej = s.rej ∨ RejectsWrite s ∨ ClearsRej s := by
  rcases step_cases h with ⟨-, hx⟩ | ⟨-, -, rfl⟩ | ⟨notDue, e, rest, next, he⟩
  · exact .inl (exec_rej hx)
  · exact .inl rfl
  · rcases hostEvent_cases he with ⟨a, rfl, rfl⟩ | ⟨a, v, rfl, rfl⟩ | ⟨rfl, rfl | rfl⟩ | ⟨rfl, rfl⟩
    · exact .inl rfl
    · rcases hostWrite_rej_cases a v (hostReady rest s) with same | busy | ⟨idle, rfl, bit⟩
      · exact .inl same
      · exact .inr (.inl ⟨notDue, busy, a, v, rest, next⟩)
      · exact .inr (.inr ⟨notDue, .inr ⟨idle, v, rest, bit, next⟩⟩)
    · exact .inl rfl
    · exact .inl rfl
    · exact .inr (.inr ⟨notDue, .inl ⟨rest, next⟩⟩)

theorem rej_set_iff (h : step s = .next t) (hs : s.rej = false) : t.rej = true ↔ RejectsWrite s := by
  refine ⟨fun ht => ?_, fun rejects => rejects.sets h⟩
  rcases step_rej_cases h with same | rejects | clears
  · exact absurd (hs.symm.trans (same.symm.trans ht)) Bool.false_ne_true
  · exact rejects
  · exact absurd ((clears.clears h).symm.trans ht) Bool.false_ne_true

theorem rej_cleared_iff (h : step s = .next t) (hs : s.rej = true) : t.rej = false ↔ ClearsRej s := by
  refine ⟨fun ht => ?_, fun clears => clears.clears h⟩
  rcases step_rej_cases h with same | rejects | clears
  · exact absurd (ht.symm.trans (same.trans hs)) Bool.false_ne_true
  · exact absurd (ht.symm.trans (rejects.sets h)) Bool.false_ne_true
  · exact clears

end

/-- Settles O19: a step that changes REJ is a rejected write or one that clears it, and each of these always has its
effect. -/
theorem rejSetAndClearedOnlyAsStated : Obligations.RejSetAndClearedOnlyAsStated :=
  ⟨fun _ _ _ _ notDue busy next => step_of_write_busy notDue busy next,
    fun _ _ h => ⟨rej_set_iff h, rej_cleared_iff h⟩⟩

end Sys2Proof.Machine

/-! ### The error codes (R160 to R165): what a failed command writes, which codes it reports, how long they stay -/

namespace Sys2Proof.Machine

/-- A completion with a non-zero code sets ERRCODE, ERR, DONE and BUSY, and the model's count; nothing else (R163). -/
theorem finish_of_ne_zero {code : Nibble} (h : code ≠ 0) (s : State) :
    { finish code s with latency := s.latency } =
      { s with errcode := code, err := true, done := true, busy := false } := by
  rw [finish, bne_iff_ne.mpr h]

/-- Settles O33: only the completion that reports an error has a non-zero code, and it writes the status alone. -/
theorem failedCommandWritesNothing : Obligations.FailedCommandWritesNothing := by
  intro i s t h failed
  rcases exec_cases i s with
    ⟨e, hx⟩ | ⟨-, hx⟩ | ⟨-, hx⟩ | ⟨-, -, hx⟩ | ⟨-, -, hx⟩ | ⟨-, -, hx⟩ <;> cases hx.symm.trans h
  · exact finish_of_ne_zero failed s
  · exact absurd rfl failed
  · exact absurd rfl failed
  · exact absurd rfl failed
  · exact absurd rfl failed
  · exact absurd rfl failed

/-! The errors of each command's own checks (R162) -/

section
variable {s : State} {e : ContractError}

theorem eq_lenRange_of_checkLen {maxBytes n : Nat} (h : checkLen maxBytes n = .error e) : e = .lenRange := by
  rcases Nat.lt_or_ge maxBytes n with hlen | hlen
  · rw [checkLen_gt hlen] at h
    cases h
    rfl
  · rw [checkLen_le hlen] at h
    cases h

theorem checkCipher_error_cases {maxBytes n : Nat} {b : Byte} (h : checkCipher maxBytes n b = .error e) :
    e = .lenRange ∨ e = .empty ∨ e = .keyRange ∨ e = .tableOverrun := by
  unfold checkCipher at h
  split_ifs at h <;> cases h <;> simp

theorem executeEncode_error_cases (h : executeEncode s = .error e) :
    e = .lenRange ∨ e = .empty ∨ e = .keyRange ∨ e = .tableOverrun := by
  unfold executeEncode at h
  split at h
  · next hc =>
    cases h
    exact checkCipher_error_cases hc
  · cases h

theorem eq_lenRange_of_executeChecksum (h : executeChecksum s = .error e) : e = .lenRange := by
  unfold executeChecksum at h
  split at h
  · next hc =>
    cases h
    exact eq_lenRange_of_checkLen hc
  · cases h

theorem executePack_error_cases (h : executePack s = .error e) : e = .lenRange ∨ e = .valueRange := by
  unfold executePack at h
  split at h
  · next hc =>
    cases h
    exact .inl (eq_lenRange_of_checkLen hc)
  · split at h <;> cases h
    exact .inr rfl

theorem executeUnpack_error_cases (h : executeUnpack s = .error e) : e = .lenRange ∨ e = .badSymbol := by
  unfold executeUnpack at h
  split_ifs at h <;> cases h
  · exact .inr rfl
  · exact .inl rfl

end

/-- A completion reports 0 or the code of the error that `Execute` raised (R93). -/
theorem reportable_of_complete {i : Instr} {r : Except ContractError State} {s t : State}
    (h : complete r s = .next t) (ok : reportable i 0 = true)
    (error : ∀ e, r = .error e → reportable i e.code = true) : reportable i t.errcode = true := by
  cases r with
  | ok u =>
    cases h
    exact ok
  | error e =>
    cases h
    exact error e rfl

theorem reportable_of_exec {i : Instr} {s t : State} (h : exec i s = .next t) : reportable i t.errcode = true := by
  cases i with
  | encode | decode =>
    refine reportable_of_complete (r := executeEncode s) h rfl fun e he => ?_
    rcases executeEncode_error_cases he with rfl | rfl | rfl | rfl <;> rfl
  | checksum =>
    refine reportable_of_complete (r := executeChecksum s) h rfl fun e he => ?_
    cases eq_lenRange_of_executeChecksum he
    rfl
  | pack =>
    refine reportable_of_complete (r := executePack s) h rfl fun e he => ?_
    rcases executePack_error_cases he with rfl | rfl <;> rfl
  | unpack =>
    refine reportable_of_complete (r := executeUnpack s) h rfl fun e he => ?_
    rcases executeUnpack_error_cases he with rfl | rfl <;> rfl
  | nop | reserved06 | reserved80 | reserved40 | reserved20 | reserved10 | reserved08 =>
    cases h
    rfl

/-- R162 lists no code that R160 does not define. -/
theorem toNat_lt_of_reportable {i : Instr} {code : Nibble} (h : reportable i code = true) : code.toNat < 8 := by
  cases i <;> simp only [reportable, Bool.or_eq_true, beq_iff_eq] at h <;> bv_omega

/-- Settles O34: the checks of each command raise only the errors R162 lists for it. -/
theorem commandReportsOnlyItsCodes : Obligations.CommandReportsOnlyItsCodes := fun _ _ _ h =>
  ⟨reportable_of_exec h, toNat_lt_of_reportable (reportable_of_exec h)⟩

/-- Settles O46: from an idle state no completion is due, and of the host's steps only an acceptance and a reset write
ERR and ERRCODE. -/
theorem errorKeptUntilNextCommand : Obligations.ErrorKeptUntilNextCommand := by
  intro s t idle h changed
  cases stepEffect_of_step h with
  | status _ due | csum _ due | output _ due | bits _ due => cases due.symm.trans (completionDue_of_idle idle)
  | accepted => exact ⟨rfl, rfl, .inl rfl⟩
  | reset rest _ next => exact ⟨rfl, rfl, .inr ⟨rest, next⟩⟩
  | inputCell | registers => exact changed.elim (absurd rfl) (absurd rfl)

end Sys2Proof.Machine

/-! ### A write read back (R55, R188), a reset while a command is pending (R181), a write that races the completion
(R187) -/

namespace Sys2Proof.Machine

theorem writeLoc_maxBytes (v : Byte) (s : State) (l : Loc) : (writeLoc v s l).maxBytes = s.maxBytes := by
  cases l <;> rfl

/-- Only a write to CMD sets BUSY, and CMD is no result location (R58, R92). -/
theorem writeLoc_busy_and_isResult {s : State} (idle : s.busy = false) (v : Byte) (l : Loc) :
    ((writeLoc v s l).busy && l.isResult) = false := by
  cases l with
  | cmd => rfl
  | _ => exact (congrArg (· && _) idle).trans (Bool.false_and _)

/-- The read after a write while BUSY is 0 gives what the location then holds: it is never a draw. -/
theorem busByte_hostWrite_of_idle {s : State} (idle : s.busy = false) {a : Addr} {l : Loc}
    (names : locate s.maxBytes a = l) (v : Byte) : busByte (hostWrite a v s) a = readLoc (writeLoc v s l) l := by
  rw [hostWrite_of_idle idle, names, busByte, readIsOpen, writeLoc_maxBytes, names,
    writeLoc_busy_and_isResult idle, if_neg Bool.false_ne_true]

theorem locate_len (maxBytes : Nat) : locate maxBytes 0x004 = .len := rfl

/-- The low part of BSLEN is its eight low bits (R35). -/
theorem setWidth_bslen_append (high : BitVec 3) (low : Byte) : (high ++ low : BitVec 11).setWidth 8 = low := by
  rw [BitVec.setWidth_eq_extractLsb' (by decide), BitVec.extractLsb'_append_eq_right]

/-- BSLEN_H takes the three low bits of the byte, and reads them back with zeros above (R35). -/
theorem setWidth_extractLsb'_three (v : Byte) : (v.extractLsb' 0 3).setWidth 8 = v &&& 0x07 := by
  revert v
  decide

/-- Settles O18: the write stores the byte, and the read is of the location it was stored in. -/
theorem writeThenReadReturnsValue : Obligations.WriteThenReadReturnsValue := by
  intro s a v idle
  obtain ⟨-, size⟩ := s.maxBytes_bounds
  refine ⟨?_, ?_⟩
  · rintro (rfl | rfl | rfl | ⟨first, last⟩ | ⟨first, last⟩)
    · exact busByte_hostWrite_of_idle idle (locate_cmd _) v
    · exact busByte_hostWrite_of_idle idle (locate_len _) v
    · exact (busByte_hostWrite_of_idle idle (locate_bslenL _) v).trans (setWidth_bslen_append _ v)
    · have names : locate s.maxBytes a = .inCell (a.toNat - 0x100) := locate_inCell size (by omega) (by omega)
      rw [busByte_hostWrite_of_idle idle names, writeLoc, readLoc, Memory.read_write, if_pos rfl]
    · have names : locate s.maxBytes a = .bsCell (a.toNat - 0x400) := locate_bsCell size (by omega) (by omega)
      rw [busByte_hostWrite_of_idle idle names, writeLoc, readLoc, Memory.read_write, if_pos rfl]
  · rintro rfl
    rw [busByte_hostWrite_of_idle idle (locate_bslenH _), writeLoc, readLoc, BitVec.extractLsb'_append_eq_left,
      setWidth_extractLsb'_three]

/-- Settles O10: the step is the reset, which sets every register whatever was pending. -/
theorem resetAbandonsPendingCommand : Obligations.ResetAbandonsPendingCommand := by
  intro s rest notDue next
  obtain ⟨-, hreset, -⟩ := stepTakesNextHostEvent
  exact ⟨hostReset (hostReady rest s), hreset s rest notDue next, rfl, rfl, rfl, rfl, rfl, rfl, rfl⟩

theorem core_run_two {s t u : State} (first : step s = .next t) (second : step t = .next u) :
    Host.Core.run Sys2Proof.core 2 s = .next u := by
  rw [core_run_succ first, core_run_succ second, core_run_zero]

section
variable {s t : State} {a : Addr} {v : Byte} {rest : List HostEvent}

/-- A write while BUSY is 0 is taken off the program and has its effect of R53. -/
theorem step_of_write_idle (idle : s.busy = false) (next : s.program = .bus (.write a v) 1 :: rest) :
    step s = .next (idleWriteTable a.toNat v { s with program := rest }) := by
  rw [step_of_write (completionDue_of_idle idle) next, hostReady_of_idle idle]
  exact congrArg _ (idleWriteHasListedEffect { s with program := rest } a v idle)

/-- A write that is rejected in the last host step before the completion changes what that completes by REJ only
(R57). -/
theorem step_after_rejected_write (busy : s.busy = true) (last : s.latency = 1)
    (h : exec (decodeByte s.cmd) s = .next t) :
    step { hostReady rest s with rej := true } = .next { t with rej := true, program := rest } := by
  have ready : { hostReady rest s with rej := true } = { s with rej := true, latency := 0, program := rest } := by
    simp [hostReady, busy, last]
  have due : completionDue { s with rej := true, latency := 0, program := rest } = true :=
    completionDue_of_latency_zero busy rfl
  rw [ready, step_of_due due]
  exact exec_hostSide h true 0 rest

end

/-- Settles O42: the step of the completion and the step of the write, in the order the count gives. -/
theorem racingWriteLandsOrIsLost : Obligations.RacingWriteLandsOrIsLost := by
  intro s a v rest busy next
  obtain ⟨t, h, idle, done, -⟩ := everyCommandCompletesKeepingInputs (decodeByte s.cmd) s
  refine ⟨t, h, idle, done, exec_rej h, fun none => ?_, fun last => ?_⟩
  · have completes : step s = .next t := (step_of_due (completionDue_of_latency_zero busy none)).trans h
    exact core_run_two completes (step_of_write_idle idle ((exec_program h).trans next))
  · have notDue : completionDue s = false := completionDue_of_waiting (by omega) next
    exact core_run_two (step_of_write_busy notDue busy next) (step_after_rejected_write busy last h)

end Sys2Proof.Machine
